-- ==== Sys2Proof/Word.lean ====
section
/-! DEFINITION. The two word types of the block: a command word and a frame-buffer byte. -/

namespace Sys2Proof

/-- A command word, `cmd_word[31:0]` (spec/30_encoding.md R60). -/
abbrev Word := BitVec 32

/-- A frame-buffer byte, one per chip (spec/10_state.md R20); bit 0 is the least significant (R10). -/
abbrev Byte := BitVec 8

end Sys2Proof
end

