-- ==== Sys2Proof/Syntax.lean ====
section
/-! DEFINITION. The commands of the block, one constructor per row of spec/opcode_table.json, and the
pseudo-instructions of the assembly form. -/

namespace Sys2Proof

/-- The commands (spec/30_encoding.md R61). Coordinates are the signed integers the document speaks of
(R62); that they fit the word's 8-bit fields is `Instr.WellFormed`. -/
inductive Instr where
  /-- `NOP` (spec/40_framebuffer_ops.md R80). -/
  | nop
  /-- `SET column, row, value` (spec/40_framebuffer_ops.md R82). -/
  | set (column row : Int) (value : Bool)
  /-- `CLEAR_ALL` (spec/40_framebuffer_ops.md R86). -/
  | clearAll
  /-- `TRANSMIT` (spec/41_serial_transmit.md R100). -/
  | transmit
  deriving DecidableEq, Repr

/-- The pseudo-instructions (spec/30_encoding.md R68). -/
inductive Pseudo where
  /-- `PIXON c, r`. -/
  | pixOn (column row : Int)
  /-- `PIXOFF c, r`. -/
  | pixOff (column row : Int)
  /-- `FRAME (c1,r1), ..., (cn,rn)`. -/
  | frame (pixels : List (Int × Int))
  deriving DecidableEq, Repr

end Sys2Proof
end

