-- ==== Sys2Proof/WellFormed.lean ====
section
/-! DEFINITION. Which commands a command word can carry. -/

namespace Sys2Proof

/-- An integer an 8-bit two's-complement coordinate field holds (spec/30_encoding.md R62, `COORD_W` of
spec/00_scope.md R6). -/
abbrev FitsCoordinate (x : Int) : Prop := -128 ≤ x ∧ x ≤ 127

/-- A well-formed command: its coordinates fit their fields. A wider coordinate "cannot be expressed in
a command word" (spec/93_implementation_defined.md U13), and truncating it is the hazard of
spec/70_reset_and_hazards.md R181. -/
abbrev Instr.WellFormed : Instr → Prop
  | .nop => True
  | .set c r _ => FitsCoordinate c ∧ FitsCoordinate r
  | .clearAll => True
  | .transmit => True

/-- The check of `Instr.WellFormed` as a function. -/
def Instr.wellFormed : Instr → Bool
  | .nop => true
  | .set c r _ => decide (FitsCoordinate c) && decide (FitsCoordinate r)
  | .clearAll => true
  | .transmit => true

end Sys2Proof
end

