-- ==== Sys2Proof/Decode.lean ====
section
/-! DEFINITION. The decoder and the encoder of the command word, the opcode table as data, and the
assembly form (spec/30_encoding.md). -/

namespace Sys2Proof

/-! ### The word's fields (R60) -/

/-- `op`, bits 31:24. -/
def opField (w : Word) : BitVec 8 := w.extractLsb' 24 8

/-- `val`, bit 16. -/
def valField (w : Word) : Bool := w.getLsbD 16

/-- `col`, bits 15:8. -/
def colField (w : Word) : BitVec 8 := w.extractLsb' 8 8

/-- `row`, bits 7:0. -/
def rowField (w : Word) : BitVec 8 := w.extractLsb' 0 8

/-- `sext_8`: the pattern read as a two's-complement signed integer (spec/00_scope.md R11). -/
def signedCoordinate (b : BitVec 8) : Int := b.toInt

/-! ### Decoding (R65) -/

/-- What a word decodes to. `reserved` is R65's RESERVED, an operation code 0x04 to 0xFF: no command of
the table, rejected here by name and executed as NOP by the step (R64, log entry 5). -/
inductive Decoded where
  | instr (i : Instr)
  | reserved (op : BitVec 8)
  deriving DecidableEq, Repr

/-- `Decode` of R65, total on every word. Bits 23:17 of SET and 23:0 of the other words are not read
(R63). -/
def decode (w : Word) : Decoded :=
  if opField w = 0x00#8 then .instr .nop
  else if opField w = 0x01#8 then
    .instr (.set (signedCoordinate (colField w)) (signedCoordinate (rowField w)) (valField w))
  else if opField w = 0x02#8 then .instr .clearAll
  else if opField w = 0x03#8 then .instr .transmit
  else .reserved (opField w)

/-- The command a decoded word stands for, if it stands for one. -/
def Decoded.toInstr? : Decoded → Option Instr
  | .instr i => some i
  | .reserved _ => none

/-- The command the decoder reads from a word numbered as spec/opcode_table.json numbers it. The block
has one 32-bit word per command (R66) presented whole on a port, so there is no byte order to lay out:
bit 0 of `w` is bit 0 of `cmd_word`, and bits above `nbits` are 0. `none` for a reserved operation code
and for a form longer than a command word. -/
def decodeTableWord (nbits w : Nat) : Option Instr :=
  if nbits ≤ 32 then (decode (BitVec.ofNat 32 (w % 2 ^ nbits))).toInstr? else none

/-! ### Encoding (R60, R61, R67) -/

/-- Format C with the ignored bits 0: `oooooooo 0000000v cccccccc rrrrrrrr` (R60). -/
def formatC (op : BitVec 8) (v : Bool) (col row : BitVec 8) : Word :=
  op ++ 0#7 ++ BitVec.ofBool v ++ col ++ row

/-- `c & 0xFF`: the low eight bits of a coordinate (R67). -/
def coordinateField (x : Int) : BitVec 8 := BitVec.ofInt 8 x

/-- The canonical word of a command (R63, R67). Of a coordinate that does not fit its field only the low
eight bits are kept, the truncation of spec/70_reset_and_hazards.md R181. -/
def encode : Instr → Word
  | .nop => formatC 0x00#8 false 0#8 0#8
  | .set c r v => formatC 0x01#8 v (coordinateField c) (coordinateField r)
  | .clearAll => formatC 0x02#8 false 0#8 0#8
  | .transmit => formatC 0x03#8 false 0#8 0#8

/-! ### The opcode table (spec/opcode_table.json) -/

/-- One row of spec/opcode_table.json: a word belongs to the row when `w &&& mask = pattern`. `ignored`
has a 1 at each bit the row lists as ignored. -/
structure OpcodeRow where
  mnemonic : String
  pattern : Word
  mask : Word
  ignored : Word
  deriving DecidableEq, Repr

/-- A word matches a row. -/
def OpcodeRow.holds (row : OpcodeRow) (w : Word) : Bool := w &&& row.mask == row.pattern

/-- The row of each command. -/
def Instr.row : Instr → OpcodeRow
  | .nop => { mnemonic := "NOP", pattern := 0x00000000#32, mask := 0xFF000000#32, ignored := 0x00FFFFFF#32 }
  | .set _ _ _ => { mnemonic := "SET", pattern := 0x01000000#32, mask := 0xFF000000#32, ignored := 0x00FE0000#32 }
  | .clearAll => { mnemonic := "CLEAR_ALL", pattern := 0x02000000#32, mask := 0xFF000000#32, ignored := 0x00FFFFFF#32 }
  | .transmit => { mnemonic := "TRANSMIT", pattern := 0x03000000#32, mask := 0xFF000000#32, ignored := 0x00FFFFFF#32 }

/-- The table: four rows. -/
def opcodeTable : List OpcodeRow :=
  [Instr.nop.row, (Instr.set 0 0 false).row, Instr.clearAll.row, Instr.transmit.row]

/-! ### The assembly form (R67, R68) -/

/-- The assembly text of a command: operands decimal, column before row, the value 0 or 1 (R67). -/
def Instr.assembly : Instr → String
  | .nop => "NOP"
  | .set c r v => "SET " ++ toString c ++ ", " ++ toString r ++ ", " ++ (if v then "1" else "0")
  | .clearAll => "CLEAR_ALL"
  | .transmit => "TRANSMIT"

/-- The expansions of R68. -/
def Pseudo.expand : Pseudo → List Instr
  | .pixOn c r => [.set c r true]
  | .pixOff c r => [.set c r false]
  | .frame pixels => .clearAll :: (pixels.map fun p => .set p.1 p.2 true) ++ [.transmit]

/-- A program is a list of commands (R67); these are its words in order. -/
def assemble (program : List Instr) : List Word := program.map encode

end Sys2Proof
end

