-- ==== Sys2Proof/Config.lean ====
section
/-! DEFINITION. The build-time parameters of spec/00_scope.md R6, this hardware's values, and the two
values the spec leaves open: the length of a timing unit and the chain's contents at power-up. -/

namespace Sys2Proof

/-- The build-time parameters (spec/00_scope.md R6). No command changes them (R8). `COORD_W` is fixed
at 8 and stands in the decoder. -/
structure Config where
  /-- `N_COLS`, the grid's width. -/
  nCols : Nat
  /-- `N_ROWS`, the grid's height. -/
  nRows : Nat
  /-- `N_CHIPS`, the number of chips and of frame-buffer bytes. -/
  nChips : Nat
  /-- `T_UNIT`, the length of a timing unit in `clk` cycles. -/
  tUnit : Nat
  deriving DecidableEq, Repr

/-- The constraints of R6's table. -/
abbrev Config.Valid (cfg : Config) : Prop :=
  1 ≤ cfg.nCols ∧ cfg.nCols ≤ 127 ∧ 1 ≤ cfg.nRows ∧ cfg.nRows ≤ 127 ∧ 1 ≤ cfg.nChips ∧ 1 ≤ cfg.tUnit

/-- The integrator's invariant of R7, `N_CHIPS * 8 >= N_COLS * N_ROWS`. The block does not check it,
and the model gives a meaning to configurations without it (spec/40_framebuffer_ops.md R84). -/
abbrev Config.Provisioned (cfg : Config) : Prop := cfg.nCols * cfg.nRows ≤ cfg.nChips * 8

/-- FREE VALUE (log entry 2): the spec leaves `T_UNIT` open (spec/92_eei_decisions.md D2); only
`T_UNIT >= 1` is known, so this is `T_UNIT - 1`. -/
opaque Config.tUnitLessOne : Nat

/-- FREE VALUE (log entry 1): the level of shift stage `i` of the chain at power-up
(spec/42_chain_receiver_model.md R133). -/
opaque Config.chainShiftAtStart : Nat → Bool

/-- FREE VALUE (log entry 1): the level of output stage `i` of the chain at power-up (R133). -/
opaque Config.chainOutAtStart : Nat → Bool

/-- This hardware: grid 5 by 5, 4 chips (R6, spec/92_eei_decisions.md D1), `T_UNIT` open. -/
def Config.hardware : Config :=
  { nCols := 5, nRows := 5, nChips := 4, tUnit := Config.tUnitLessOne + 1 }

end Sys2Proof
end

