-- ==== Sys2Proof/Machine/State.lean ====
section
/-! DEFINITION. The state of the machine as plain data: the block's tuple (spec/10_state.md R33), the
chip chain (spec/42_chain_receiver_model.md R130), the build-time parameters and what the host will drive
on the command port; and the machine right after reset. -/

namespace Sys2Proof.Machine

/-- The frame buffer as memory: (chip index, byte) pairs, chip indices strictly rising, no entry equal to
what an unlisted chip index reads as (`Memory.wf` in Machine/Ops.lean, log entry 7). -/
abbrev Memory := List Host.Cell

/-- The three output lines (spec/10_state.md R23). -/
inductive Line where
  | data
  | clock
  | latch
  deriving DecidableEq, Repr

/-- A micro-operation (spec/00_scope.md R12): `W(line, level)` or `H`. -/
inductive MicroOp where
  | write (line : Line) (level : Bool)
  | hold
  deriving DecidableEq, Repr

/-- The sequencer register `SEQ` (spec/10_state.md R24). The bounds `upc < L` and `t < T_UNIT` of R33
are part of the invariant of Safety.lean. -/
inductive Seq where
  | idle
  | run (upc t : Nat)
  deriving DecidableEq, Repr

/-- The downstream chain (spec/42_chain_receiver_model.md R130): `sr[8*k+j]` and `out[8*k+j]` are the
shift stage and the output stage `j` of chip `k`. The length of the lists is `8*M`. -/
structure Chain where
  sr : List Bool
  out : List Bool
  deriving DecidableEq, Repr

/-- The three inputs of the block at one rising edge of `clk` (spec/10_state.md R25). -/
structure PortIn where
  rst : Bool
  cmdValid : Bool
  cmdWord : Word
  deriving DecidableEq, Repr

/-- What the host does next on the port (log entry 4). `drive p` puts exactly the levels `p` on the
inputs for one edge. `present w` keeps `cmd_valid = 1` and `cmd_word = w` with `rst = 0` until the edge
at which the command is accepted (spec/10_state.md R26, spec/70_reset_and_hazards.md R176). -/
inductive HostAct where
  | drive (p : PortIn)
  | present (w : Word)
  deriving DecidableEq, Repr

/-- The machine's state. The first five fields are the block's whole tuple (spec/10_state.md R33); the
chain is its environment; `cfg` and `host` are the model's own fields, configuration and input, which
the spec does not call state (R25, log entries 3 and 4). -/
structure State where
  /-- `FB`, the frame buffer (R20). -/
  fb : Memory
  /-- `DATA`, the level of the data line (R23). -/
  data : Bool
  /-- `CLOCK`, the level of the clock line (R23). -/
  clock : Bool
  /-- `LATCH`, the level of the latch line (R23). -/
  latch : Bool
  /-- `SEQ`, the sequencer (R24). -/
  seq : Seq
  /-- The downstream chain (R130, log entry 10). -/
  chain : Chain
  /-- The build-time parameters (spec/00_scope.md R6). No step changes them. -/
  cfg : Config
  /-- What the host will drive on the port, the next edge first. At its end all inputs are low. -/
  host : List HostAct
  deriving DecidableEq, Repr

/-- Why the machine can stop. The block has no exception (spec/60_exceptions.md R150), so no instruction
raises any of these. -/
inductive Fault where
  /-- Raised by the sequencer's edge alone, in a state whose micro-operation index is not below `L`,
  a value the type `Fin L` of spec/10_state.md R33 excludes. Safe: no reachable state raises it (log
  entry 8). -/
  | microOpIndexOutOfRange (upc : Nat)
  deriving DecidableEq, Repr

/-- Why an instruction can be refused. -/
inductive Refusal where
  /-- Raised by `exec` for an instruction that has no meaning yet; safe. No arm raises it now. -/
  | notModelled (mnemonic : String)
  deriving DecidableEq, Repr

/-- The chain at power-up: 4 chips, as many as the block has frame-buffer bytes (R130, R172), with
contents the spec leaves open (R133, log entry 1). -/
def Chain.atPowerUp : Chain :=
  { sr := (List.range 32).map Config.chainShiftAtStart
    out := (List.range 32).map Config.chainOutAtStart }

/-- The machine right after reset (spec/10_state.md R32, spec/70_reset_and_hazards.md R170): every
register of the block at R32's value, this hardware's parameters, a chain nothing was shifted into yet,
and a host that drives nothing. -/
def State.reset : State :=
  { fb := []
    data := false
    clock := false
    latch := false
    seq := .idle
    chain := Chain.atPowerUp
    cfg := Config.hardware
    host := [] }

end Sys2Proof.Machine
end

