-- ==== Sys2Proof/Machine/Ops.lean ====
section
/-! DEFINITION. The named operations the meanings share: frame-buffer bytes, the chain, the output lines
and the block's reset. There is no exception entry and no exception return here because the block has
none (spec/60_exceptions.md R150, R155, R156); its one asynchronous event is `rst`, `State.blockReset`. -/

namespace Sys2Proof.Machine

/-! ### Frame-buffer bytes -/

/-- What an unlisted chip index reads as: the reset content of every byte (spec/10_state.md R32). -/
def Memory.unlisted : Byte := 0x00#8

/-- `FB[k]`. -/
def Memory.read : Memory → Nat → Byte
  | [], _ => Memory.unlisted
  | c :: m, k => if c.1 = k then c.2 else Memory.read m k

/-- Puts one entry before `m`, unless it says what an unlisted index reads as. -/
def Memory.entry (k : Nat) (b : Byte) (m : Memory) : Memory :=
  if b = Memory.unlisted then m else (k, b) :: m

/-- `FB[k] <- b`, keeping the canonical form. -/
def Memory.write : Memory → Nat → Byte → Memory
  | [], k, b => Memory.entry k b []
  | c :: m, k, b =>
    if k < c.1 then Memory.entry k b (c :: m)
    else if k = c.1 then Memory.entry k b m
    else c :: Memory.write m k b

/-- The canonical form: chip indices strictly rising, and no entry equal to the unlisted value. -/
abbrev Memory.wf (m : Memory) : Prop :=
  m.Pairwise (fun a b => a.1 < b.1) ∧ ∀ c ∈ m, c.2 ≠ Memory.unlisted

/-- Every listed chip index exists, that is, lies below `n` (`N_CHIPS`). -/
abbrev Memory.within (m : Memory) (n : Nat) : Prop := ∀ c ∈ m, c.1 < n

/-- Every byte 0x00 (spec/10_state.md R32, spec/40_framebuffer_ops.md R86). -/
def Memory.cleared : Memory := []

/-! ### The chain (environment) -/

/-- A rising edge of CLOCK with DATA at level `d`: every chip shifts by one, `SR[0] <- d`, and the old
last stage is lost (spec/42_chain_receiver_model.md R131). -/
def Chain.shift (d : Bool) (ch : Chain) : Chain :=
  { ch with sr := (d :: ch.sr).take ch.sr.length }

/-- A rising edge of LATCH: `OUT[i] <- SR[i]` for every `i`, all at once (R132). -/
def Chain.latchOutputs (ch : Chain) : Chain := { ch with out := ch.sr }

/-! ### The output lines -/

/-- A rising edge: a change from 0 to 1; writing the level a line already has makes no edge
(spec/00_scope.md R13). -/
def risingEdge (before after : Bool) : Bool := !before && after

/-- A falling edge: a change from 1 to 0 (R13). -/
def fallingEdge (before after : Bool) : Bool := before && !after

/-- `line <- v` (spec/00_scope.md R12), with what the edge it makes does to the chain in the same
transition (spec/60_exceptions.md R161). A change of DATA and a falling edge do nothing to the chain
(spec/42_chain_receiver_model.md R131, R132). -/
def State.writeLine (line : Line) (v : Bool) (s : State) : State :=
  match line with
  | .data => { s with data := v }
  | .clock =>
    { s with clock := v, chain := if risingEdge s.clock v then s.chain.shift s.data else s.chain }
  | .latch =>
    { s with latch := v, chain := if risingEdge s.latch v then s.chain.latchOutputs else s.chain }

/-! ### Reset -/

/-- The state after an edge with `rst = 1` (spec/10_state.md R32, spec/70_reset_and_hazards.md R170,
R173): every register of the block at its reset value. The lines can only fall, and the block's reset
does not reach the chain (spec/42_chain_receiver_model.md R133, R137). -/
def State.blockReset (s : State) : State :=
  { s with fb := Memory.cleared, data := false, clock := false, latch := false, seq := .idle }

end Sys2Proof.Machine
end

