-- ==== Sys2Proof/Machine/Operands.lean ====
section
/-! DEFINITION. The address forms of the frame buffer (spec/20_memory.md R40): the pixel coordinate with
its translation (the sub-block `framebuffer_2d_linear_indexer`), the linear bit index, and chip and bit. -/

namespace Sys2Proof.Machine

/-- The linear index of a coordinate, `c * N_ROWS + r` (spec/20_memory.md R45), exact (R47). -/
def linearIndex (cfg : Config) (c r : Int) : Nat := (c * cfg.nRows + r).toNat

/-- `Translate` (spec/20_memory.md R46): the bounds check and the indexer. `some (k, j)` is chip `k`,
bit `j`; `none` is a dropped access. -/
def translate (cfg : Config) (c r : Int) : Option (Nat × Nat) :=
  if c < 0 ∨ (cfg.nCols : Int) ≤ c then none
  else if r < 0 ∨ (cfg.nRows : Int) ≤ r then none
  else if cfg.nChips ≤ linearIndex cfg c r / 8 then none
  else some (linearIndex cfg c r / 8, linearIndex cfg c r % 8)

/-- The 8-bit mask of bit `j`, `1 << j` (spec/20_memory.md R41). -/
def bitMask (j : Nat) : Byte := 1#8 <<< j

/-- `FB[k]` with bit `j` set or cleared "via OR/AND-with-complement", written back
(spec/40_framebuffer_ops.md R82). -/
def Memory.writeBit (m : Memory) (k j : Nat) (v : Bool) : Memory :=
  m.write k (if v then m.read k ||| bitMask j else m.read k &&& ~~~(bitMask j))

/-- `BitRead(i) = FB[i div 8][i mod 8]` (spec/10_state.md R21). -/
def bitRead (m : Memory) (i : Nat) : Bool := (m.read (i / 8)).getLsbD (i % 8)

/-- `BitWrite(i, v)` (spec/00_scope.md R12). -/
def bitWrite (m : Memory) (i : Nat) (v : Bool) : Memory := m.writeBit (i / 8) (i % 8) v

end Sys2Proof.Machine
end

