-- ==== Sys2Proof/Machine/FrameBuffer.lean ====
section
/-! DEFINITION. The frame-buffer commands (spec/40_framebuffer_ops.md): NOP, SET, CLEAR_ALL, and a word with
a reserved operation code. Each is the whole effect of the edge at which the command is accepted (R81). -/

namespace Sys2Proof.Machine

/-- NOP (R80): the state after equals the state before. -/
def execNop (s : State) : Host.Outcome State Fault Refusal := .next s

/-- A reserved operation code 0x04 to 0xFF "does what NOP does" (spec/30_encoding.md R64). -/
def execReserved (_op : BitVec 8) (s : State) : Host.Outcome State Fault Refusal := .next s

/-- SET (R82): one bit through the indexer; a coordinate whose translation fails is dropped (R83, R84). -/
def execSet (c r : Int) (v : Bool) (s : State) : Host.Outcome State Fault Refusal :=
  match translate s.cfg c r with
  | none => .next s
  | some (k, j) => .next { s with fb := s.fb.writeBit k j v }

/-- CLEAR_ALL (R86): every byte 0x00 in the same edge. -/
def execClearAll (s : State) : Host.Outcome State Fault Refusal :=
  .next { s with fb := Memory.cleared }

end Sys2Proof.Machine
end

