-- ==== Sys2Proof/Machine/Transmit.lean ====
section
/-! DEFINITION. TRANSMIT (spec/41_serial_transmit.md) at both of the spec's levels: the micro-operation list
and its execution in order (the event level), and the command that starts the sequencer with the
sequencer's edge (the cycle level). -/

namespace Sys2Proof.Machine

/-! ### The event level -/

/-- One bit cell: clock low, data, hold, clock high, hold (R102; spec/30_encoding.md R70). -/
def bitCell (b : Bool) : List MicroOp :=
  [.write .clock false, .write .data b, .hold, .write .clock true, .hold]

/-- One byte, most significant bit first (R102). -/
def byteCells (b : Byte) : List MicroOp :=
  [7, 6, 5, 4, 3, 2, 1, 0].flatMap fun j => bitCell (b.getLsbD j)

/-- The latch pulse: low, hold, high, hold, low (R102). -/
def latchPulse : List MicroOp :=
  [.write .latch false, .hold, .write .latch true, .hold, .write .latch false]

/-- `MicroOps(FB)` for `n` chips: the last chip of the chain first, chip 0 last, then the latch pulse
(R102). -/
def microOps (n : Nat) (fb : Memory) : List MicroOp :=
  (List.range n).reverse.flatMap (fun k => byteCells (fb.read k)) ++ latchPulse

/-- The effect of one micro-operation: a line write, or nothing but the passing of a timing unit. -/
def State.microStep (s : State) : MicroOp → State
  | .write line v => s.writeLine line v
  | .hold => s

/-- A list of micro-operations executed in order. -/
def State.runMicroOps (s : State) (ops : List MicroOp) : State := ops.foldl State.microStep s

/-- TRANSMIT at the event level (R100): the whole transfer of the frame buffer. -/
def State.transmitFrame (s : State) : State := s.runMicroOps (microOps s.cfg.nChips s.fb)

/-! ### Indexing the list -/

/-- `L = 40*N_CHIPS + 5`, the number of micro-operations of a transfer (R102; spec/10_state.md R24). -/
def microOpCount (n : Nat) : Nat := 40 * n + 5

/-- Micro-operation `p` of the latch pulse (R104's second case list). -/
def latchMicroOp : Nat → Option MicroOp
  | 0 => some (.write .latch false)
  | 1 => some .hold
  | 2 => some (.write .latch true)
  | 3 => some .hold
  | 4 => some (.write .latch false)
  | _ => none

/-- Micro-operation `p` of a bit cell (R104's first case list). -/
def cellMicroOp (b : Bool) : Nat → MicroOp
  | 0 => .write .clock false
  | 1 => .write .data b
  | 2 => .hold
  | 3 => .write .clock true
  | _ => .hold

/-- `MicroOp(FB, upc)` (R104), without building the list; `none` when `upc` is not below `L`. -/
def microOp (n : Nat) (fb : Memory) (upc : Nat) : Option MicroOp :=
  if upc < 40 * n then
    some (cellMicroOp ((fb.read (n - 1 - upc / 40)).getLsbD (7 - upc % 40 / 5)) (upc % 5))
  else latchMicroOp (upc - 40 * n)

/-! ### The cycle level -/

/-- TRANSMIT at the edge that accepts it (R108): the sequencer starts and nothing else changes. -/
def execTransmit (s : State) : Host.Outcome State Fault Refusal :=
  .next { s with seq := .run 0 0 }

/-- `SEQ` after micro-operation `upc` completes: the next one, or Idle after the last (R109, R111). -/
def seqAfter (n upc : Nat) : Seq :=
  if upc = microOpCount n - 1 then .idle else .run (upc + 1) 0

/-- One edge of the sequencer in `Run(upc, t)` (R109, R110, R111): a write takes one edge and changes one
line; a hold counts `T_UNIT` edges and changes none. -/
def sequencerEdge (upc t : Nat) (s : State) : Host.Outcome State Fault Refusal :=
  match microOp s.cfg.nChips s.fb upc with
  | none => .fault (.microOpIndexOutOfRange upc)
  | some (.write line v) => .next { s.writeLine line v with seq := seqAfter s.cfg.nChips upc }
  | some .hold =>
    .next { s with seq := if t = s.cfg.tUnit - 1 then .run (upc + 1) 0 else .run upc (t + 1) }

/-! ### Durations -/

/-- The number of edges a micro-operation takes (R109, R111). -/
def MicroOp.edges (tUnit : Nat) : MicroOp → Nat
  | .write _ _ => 1
  | .hold => tUnit

/-- The number of edges the first `m` micro-operations of a transfer take, counted from the accepting
edge (edge 0). Micro-operation `u` completes at edge `edgesFor cfg fb (u + 1)` (R112). -/
def edgesFor (cfg : Config) (fb : Memory) (m : Nat) : Nat :=
  (((microOps cfg.nChips fb).take m).map (MicroOp.edges cfg.tUnit)).sum

/-- `E` of R112, the edge at which the last micro-operation executes. -/
def transferEdges (cfg : Config) : Nat :=
  (24 * cfg.nChips + 3) + (16 * cfg.nChips + 2) * cfg.tUnit

end Sys2Proof.Machine
end

