-- ==== Sys2Proof/Machine/Dispatch.lean ====
section
/-! DEFINITION. The meaning of each command, one arm per constructor of Instr: what the edge that accepts the
command does (spec/41_serial_transmit.md R110). -/

namespace Sys2Proof.Machine

def exec (i : Instr) (s : State) : Host.Outcome State Fault Refusal :=
  match i with
  | .nop => Sys2Proof.Machine.execNop s
  | .set c r v => Sys2Proof.Machine.execSet c r v s
  | .clearAll => Sys2Proof.Machine.execClearAll s
  | .transmit => Sys2Proof.Machine.execTransmit s

end Sys2Proof.Machine
end

