-- ==== Sys2Proof/Machine/Flags.lean ====
section
/-! DEFINITION. The block has no condition codes, status flags or error flags (spec/10_state.md R28). The
only status a host can observe is on the output ports, combinational functions of the state (R25 to R27),
which stand here. -/

namespace Sys2Proof.Machine

/-- `cmd_ready`: 1 exactly when `SEQ = Idle` (spec/10_state.md R26). -/
def State.cmdReady (s : State) : Bool :=
  match s.seq with
  | .idle => true
  | .run _ _ => false

/-- `busy`: the complement of `cmd_ready` (R25, R26). -/
def State.busy (s : State) : Bool := !s.cmdReady

/-- `fb_q`: the frame buffer as a flat vector, `fb_q[i] = BitRead(i)` (R25, R27). -/
def State.fbQ (s : State) : BitVec (8 * s.cfg.nChips) := BitVec.ofFnLE fun i => bitRead s.fb i.val

/-- `ser_data` (R25). -/
def State.serData (s : State) : Bool := s.data

/-- `ser_clock` (R25). -/
def State.serClock (s : State) : Bool := s.clock

/-- `ser_latch` (R25). -/
def State.serLatch (s : State) : Bool := s.latch

end Sys2Proof.Machine
end

