-- ==== Sys2Proof/Machine/Ports.lean ====
section
/-! DEFINITION. The command port: what the host drives at the next edge, when a command is accepted, and
what the host still has to do after the edge (spec/10_state.md R25, R26). -/

namespace Sys2Proof.Machine

/-- All three inputs low: no reset, no command. -/
def PortIn.low : PortIn := { rst := false, cmdValid := false, cmdWord := 0#32 }

/-- The levels an act of the host puts on the inputs at one edge. -/
def HostAct.port : HostAct → PortIn
  | .drive p => p
  | .present w => { rst := false, cmdValid := true, cmdWord := w }

/-- The inputs at the next rising edge of `clk`. -/
def State.portNow (s : State) : PortIn :=
  match s.host with
  | [] => PortIn.low
  | a :: _ => a.port

/-- The next edge accepts a command: `rst = 0`, `cmd_valid = 1` and `cmd_ready = 1` (R25). -/
def State.accepts (s : State) : Bool :=
  !s.portNow.rst && s.portNow.cmdValid && s.cmdReady

/-- The host's part of an edge. A driven edge is past; a presented command is held until it is accepted,
and nothing in the block remembers one that was not (R26, spec/70_reset_and_hazards.md R176). -/
def State.passEdge (s : State) : State :=
  match s.host with
  | [] => s
  | .drive _ :: rest => { s with host := rest }
  | .present w :: rest => { s with host := if s.accepts then rest else .present w :: rest }

/-- The host's schedule for a program (spec/30_encoding.md R67): each word in order, held until
accepted. -/
def hostProgram (words : List Word) : List HostAct := words.map .present

end Sys2Proof.Machine
end

