-- ==== Sys2Proof/Machine/Step.lean ====
section
/-! DEFINITION. One rising edge of `clk` (spec/41_serial_transmit.md R110), in the priority order of
spec/60_exceptions.md R154. -/

namespace Sys2Proof.Machine

/-- One step: `rst` wins over everything; else a running sequencer advances and the command port is
ignored; else the presented command, if any, is accepted and executed. -/
def step (s : State) : Host.Outcome State Fault Refusal :=
  if s.portNow.rst then .next s.passEdge.blockReset
  else
    match s.seq with
    | .run upc t => sequencerEdge upc t s.passEdge
    | .idle =>
      if s.portNow.cmdValid then
        match decode s.portNow.cmdWord with
        | .instr i => exec i s.passEdge
        | .reserved op => execReserved op s.passEdge
      else .next s.passEdge

/-- `s` with the word `w` where the next step takes its command from: the host presents it at the next
edge, ahead of whatever else it will do, and the block is ready to accept (`SEQ = Idle`). A program is
loaded from outside the machine in this way (log entry 6). -/
def State.withFetchWord (s : State) (nbits w : Nat) : State :=
  { s with seq := .idle, host := .present (BitVec.ofNat 32 (w % 2 ^ nbits)) :: s.host }

end Sys2Proof.Machine
end

