-- ==== Sys2Proof/Machine/Waveform.lean ====
section
/-! DEFINITION. What an observer of the three lines sees while a list of micro-operations executes: the data
sampled at each capturing edge and the edges of a line (spec/41_serial_transmit.md R105, R117). -/

namespace Sys2Proof.Machine

/-- The levels of DATA at the successive rising edges of CLOCK, the first one first (R117). -/
def State.capturedData : State → List MicroOp → List Bool
  | _, [] => []
  | s, op :: ops =>
    if risingEdge s.clock (s.microStep op).clock then s.data :: State.capturedData (s.microStep op) ops
    else State.capturedData (s.microStep op) ops

/-- The level of a line. -/
def State.lineLevel (s : State) : Line → Bool
  | .data => s.data
  | .clock => s.clock
  | .latch => s.latch

/-- How many rising edges a line makes (R105). -/
def State.risingEdges (line : Line) : State → List MicroOp → Nat
  | _, [] => 0
  | s, op :: ops =>
    (if risingEdge (s.lineLevel line) ((s.microStep op).lineLevel line) then 1 else 0)
      + State.risingEdges line (s.microStep op) ops

/-- How many falling edges a line makes (R105). -/
def State.fallingEdges (line : Line) : State → List MicroOp → Nat
  | _, [] => 0
  | s, op :: ops =>
    (if fallingEdge (s.lineLevel line) ((s.microStep op).lineLevel line) then 1 else 0)
      + State.fallingEdges line (s.microStep op) ops

/-- The micro-operation is a line write. -/
def MicroOp.isWrite : MicroOp → Bool
  | .write _ _ => true
  | .hold => false

/-- The micro-operation is a write of this line. -/
def MicroOp.writesLine (line : Line) : MicroOp → Bool
  | .write l _ => l == line
  | .hold => false

end Sys2Proof.Machine
end

