-- ==== Sys2Proof/Safety.lean ====
section
/-! DEFINITION. What the statements about the machine are said in: the states a run can reach
(spec/10_state.md R33), the invariants of R34 with the well-formedness of the model's data, and small
helpers to speak of a run. -/

namespace Sys2Proof.Machine

/-! ### Outcomes and runs -/

/-- The next state of an outcome, if it is one. -/
def stateAfter : Host.Outcome State Fault Refusal → Option State
  | .next s => some s
  | .fault _ => none
  | .refused _ => none

/-- `k` edges of `clk`, stopping at the first stop: the host's run of this machine. -/
def runEdges (k : Nat) (s : State) : Host.Outcome State Fault Refusal := core.run k s

/-- Commands executed one after another, in acceptance order (spec/20_memory.md R51). -/
def execSeq : List Instr → State → Host.Outcome State Fault Refusal
  | [], s => .next s
  | i :: is, s =>
    match exec i s with
    | .next t => execSeq is t
    | .fault r => .fault r
    | .refused r => .refused r

/-- The host asserts no reset in its schedule. -/
def noReset (acts : List HostAct) : Prop := ∀ a ∈ acts, a.port.rst = false

/-- A state seen without the host's schedule: the block, its configuration and the chain. -/
def State.withoutHost (s : State) : State := { s with host := [] }

/-! ### The data of the model is well formed -/

/-- Both layers of the chain have `8*M` stages (spec/42_chain_receiver_model.md R130). -/
abbrev Chain.wf (ch : Chain) : Prop := ch.out.length = ch.sr.length ∧ ch.sr.length % 8 = 0

/-- The bounds of `Run(upc : Fin L, t : Fin T_UNIT)` (spec/10_state.md R33), and `t = 0` in a write
micro-operation (R24). -/
def Seq.inRange (n tUnit : Nat) (fb : Memory) : Seq → Prop
  | .idle => True
  | .run upc t =>
    upc < microOpCount n ∧ t < tUnit ∧ ((microOp n fb upc).all MicroOp.isWrite → t = 0)

/-! ### The line levels of each phase -/

/-- The level of LATCH in each phase (spec/10_state.md R34 items 2 and 3). -/
def Seq.latchLevel (n : Nat) : Seq → Bool
  | .idle => false
  | .run upc _ => decide (upc = 40 * n + 3 ∨ upc = 40 * n + 4)

/-- The level of CLOCK in each phase of a transfer, where the micro-operations already completed fix it;
`none` before the first clock write and when Idle. -/
def Seq.clockLevel (n : Nat) : Seq → Option Bool
  | .idle => none
  | .run upc _ =>
    if upc = 0 then none
    else some (decide (40 * n ≤ upc ∨ upc % 5 = 4 ∨ upc % 5 = 0))

/-- The linear bit index DATA holds in each phase of a transfer; `none` before the first data write and
when Idle. -/
def Seq.dataIndex (n : Nat) : Seq → Option Nat
  | .idle => none
  | .run upc _ => if upc ≤ 1 then none else some (8 * n - 1 - min ((upc - 2) / 5) (8 * n - 1))

/-- The invariant of every reachable state: spec/10_state.md R33's types, R34 items 1 to 3, the levels of
CLOCK and DATA that R102 fixes in each phase, and the canonical form of the frame buffer. -/
structure State.Inv (s : State) : Prop where
  /-- The parameters meet R6's constraints. -/
  cfgValid : s.cfg.Valid
  /-- The frame buffer is in canonical form. -/
  fbCanonical : s.fb.wf
  /-- The frame buffer has `N_CHIPS` bytes and no more (R20). -/
  fbWithin : s.fb.within s.cfg.nChips
  /-- The bits no valid coordinate maps to are 0 (R34 item 1). -/
  unusedZero : ∀ i, s.cfg.nCols * s.cfg.nRows ≤ i → bitRead s.fb i = false
  /-- `upc` and `t` are in range (R33). -/
  seqInRange : s.seq.inRange s.cfg.nChips s.cfg.tUnit s.fb
  /-- LATCH is high exactly in the two phases of R34 item 3, and low when Idle (item 2). -/
  latchLevel : s.latch = s.seq.latchLevel s.cfg.nChips
  /-- CLOCK has the level the last clock write of the transfer gave it. -/
  clockLevel : ∀ v, s.seq.clockLevel s.cfg.nChips = some v → s.clock = v
  /-- DATA has the bit the last data write of the transfer gave it. -/
  dataLevel : ∀ i, s.seq.dataIndex s.cfg.nChips = some i → s.data = bitRead s.fb i
  /-- The chain's two layers have `8*M` stages each. -/
  chainWf : s.chain.wf

/-! ### Runs -/

/-- A state right after a reset, for any build-time parameters R6 admits, any chain with any contents
(spec/42_chain_receiver_model.md R133) and any schedule of the host. -/
def State.AfterReset (s : State) : Prop :=
  s = s.blockReset ∧ s.cfg.Valid ∧ s.chain.wf

/-- "A state is reachable if it is the reset state of rule R32 or the `step` of a reachable state"
(spec/10_state.md R33). -/
inductive Reachable : State → Prop
  | reset (s : State) : s.AfterReset → Reachable s
  | step (s t : State) : Reachable s → Sys2Proof.Machine.step s = .next t → Reachable t

/-- A reachable state with what happened since the last reset: `none` when no transfer has completed since
then, `some d` when one has and `d` was `FB[0][0]` during the last one (spec/10_state.md R34 item 5). -/
inductive History : Option Bool → State → Prop
  | reset (s : State) : s.AfterReset → History none s
  | resetEdge (h : Option Bool) (s t : State) :
      History h s → s.portNow.rst = true → Sys2Proof.Machine.step s = .next t → History none t
  | lastMicroOp (h : Option Bool) (s t : State) (tick : Nat) :
      History h s → s.portNow.rst = false → s.seq = .run (microOpCount s.cfg.nChips - 1) tick →
      Sys2Proof.Machine.step s = .next t → History (some (bitRead s.fb 0)) t
  | otherEdge (h : Option Bool) (s t : State) :
      History h s → s.portNow.rst = false →
      (∀ tick, s.seq ≠ .run (microOpCount s.cfg.nChips - 1) tick) →
      Sys2Proof.Machine.step s = .next t → History h t

/-- What has happened since the last reset once the next edge is past, if `h` says it before that edge: a
reset forgets, the last micro-operation of a transfer records `FB[0][0]`, any other edge changes nothing. -/
def historyAfter (h : Option Bool) (s : State) : Option Bool :=
  if s.portNow.rst then none
  else
    match s.seq with
    | .idle => h
    | .run upc _ => if upc = microOpCount s.cfg.nChips - 1 then some (bitRead s.fb 0) else h

/-- The invariant with what has happened since the last reset: after a completed transfer an idle block has
the levels of spec/10_state.md R34 item 5, before the first one those of reset (R32). -/
structure State.InvWithHistory (h : Option Bool) (s : State) : Prop where
  /-- The invariant of every reachable state. -/
  inv : s.Inv
  /-- R34 item 5. -/
  afterTransfer : ∀ d, h = some d → s.seq = .idle → s.clock = true ∧ s.data = d
  /-- CLOCK and DATA are as reset left them. -/
  beforeTransfer : h = none → s.seq = .idle → s.clock = false ∧ s.data = false

end Sys2Proof.Machine
end

