-- ==== Sys2Proof/Certificates/Slice0/Obligations.lean ====
section
/-! DEFINITION. The statements for the provers. Each docstring names the rule of spec/ it formalises. -/

open Sys2Proof Sys2Proof.Machine

/-! ### Encoding -/

/-- Words of spec/95_test_vectors.md V14 to V26 decode to what they stand for. -/
def Obligations.SpecWordsDecode : Prop :=
  decode 0x00000000#32 = .instr .nop ∧
  decode 0x00ABCDEF#32 = .instr .nop ∧
  decode 0x01010000#32 = .instr (.set 0 0 true) ∧
  decode 0x01000203#32 = .instr (.set 2 3 false) ∧
  decode 0x0101FF02#32 = .instr (.set (-1) 2 true) ∧
  decode 0x01018080#32 = .instr (.set (-128) (-128) true) ∧
  decode 0x01FE0404#32 = .instr (.set 4 4 false) ∧
  decode 0x01FF0404#32 = .instr (.set 4 4 true) ∧
  decode 0x02FFFFFF#32 = .instr .clearAll ∧
  decode 0x03000000#32 = .instr .transmit ∧
  decode 0x04000000#32 = .reserved 0x04#8 ∧
  decode 0xFF010404#32 = .reserved 0xFF#8

/-- R65 over the fields of R60: what each word decodes to, whatever its ignored bits are; the coordinate
fields are read as two's complement (R62). -/
def Obligations.EveryWordDecodesByItsFields : Prop :=
  ∀ (op : BitVec 8) (ignored : BitVec 7) (v : Bool) (col row : BitVec 8) (w : Word),
    w = op ++ ignored ++ BitVec.ofBool v ++ col ++ row →
      (op.toNat = 0 → decode w = .instr .nop) ∧
      (op.toNat = 1 → ∀ c r : Int,
        c = (if col.toNat < 128 then (col.toNat : Int) else (col.toNat : Int) - 256) →
        r = (if row.toNat < 128 then (row.toNat : Int) else (row.toNat : Int) - 256) →
        decode w = .instr (.set c r v)) ∧
      (op.toNat = 2 → decode w = .instr .clearAll) ∧
      (op.toNat = 3 → decode w = .instr .transmit) ∧
      (4 ≤ op.toNat → decode w = .reserved op)

/-- Decoding the canonical word of a well-formed command gives it back (R62, R65, R67). -/
def Obligations.DecodeOfEncode : Prop :=
  ∀ i : Instr, i.WellFormed → decode (encode i) = .instr i

/-- The command a word decodes to is well formed, and its canonical word is that word with the ignored
bits 0 (R63). -/
def Obligations.EncodeOfDecodeClearsIgnoredBits : Prop :=
  ∀ (w : Word) (i : Instr), decode w = .instr i →
    i.WellFormed ∧ encode i = w &&& ~~~i.row.ignored

/-- The decoder reads a word as the command of an opcode-table row exactly when the word matches the row,
and a word matches at most one row (spec/opcode_table.json). -/
def Obligations.DecoderFollowsOpcodeTable : Prop :=
  ∀ w : Word,
    (∀ row ∈ opcodeTable, row.holds w = true ↔ ∃ i, decode w = .instr i ∧ i.row = row) ∧
    (∀ row ∈ opcodeTable, ∀ row' ∈ opcodeTable, row.holds w = true → row'.holds w = true → row = row')

/-- The hazard of R181: a coordinate moved by a non-zero multiple of 256 has the same word, and it is no
well-formed coordinate if the one it aliases is. -/
def Obligations.TruncatedCoordinatesAlias : Prop :=
  ∀ (c r m : Int) (v : Bool),
    encode (.set (c + 256 * m) r v) = encode (.set c r v) ∧
    encode (.set c (r + 256 * m) v) = encode (.set c r v) ∧
    (m ≠ 0 → FitsCoordinate c → ¬ (Instr.set (c + 256 * m) r v).WellFormed) ∧
    (m ≠ 0 → FitsCoordinate r → ¬ (Instr.set c (r + 256 * m) v).WellFormed)

/-! ### The indexer -/

/-- R46: the translation succeeds with chip `k` and bit `j` exactly when the three conditions hold and
`8*k + j` is the linear index `c * N_ROWS + r`; and when the invariant of R7 holds, condition 3 is implied
by 1 and 2. -/
def Obligations.TranslateIsTheBoundsCheckedIndex : Prop :=
  (∀ (cfg : Config) (c r : Int) (k j : Nat),
    translate cfg c r = some (k, j) ↔
      (0 ≤ c ∧ c < cfg.nCols) ∧ (0 ≤ r ∧ r < cfg.nRows) ∧ k < cfg.nChips ∧ j < 8 ∧
        c * cfg.nRows + r = 8 * (k : Int) + j) ∧
  ∀ (cfg : Config) (c r : Int), cfg.Provisioned → 0 ≤ c → c < cfg.nCols → 0 ≤ r → r < cfg.nRows →
    (c * cfg.nRows + r) / 8 < cfg.nChips

/-- R47: on valid coordinates the linear index is `c * rows + r`, a bijection onto
`[0, N_COLS*N_ROWS)`, at most 16128, with a chip index of at most 2016. -/
def Obligations.IndexerIsABijection : Prop :=
  ∀ cfg : Config, cfg.Valid →
    (∀ c r : Int, 0 ≤ c → c < cfg.nCols → 0 ≤ r → r < cfg.nRows →
      (linearIndex cfg c r : Int) = c * cfg.nRows + r ∧
      linearIndex cfg c r < cfg.nCols * cfg.nRows ∧
      linearIndex cfg c r ≤ 16128 ∧
      linearIndex cfg c r / 8 ≤ 2016) ∧
    (∀ c r c' r' : Int, 0 ≤ c → c < cfg.nCols → 0 ≤ r → r < cfg.nRows →
      0 ≤ c' → c' < cfg.nCols → 0 ≤ r' → r' < cfg.nRows →
      linearIndex cfg c r = linearIndex cfg c' r' → c = c' ∧ r = r') ∧
    (∀ i : Nat, i < cfg.nCols * cfg.nRows →
      i / cfg.nRows < cfg.nCols ∧ i % cfg.nRows < cfg.nRows ∧
      linearIndex cfg (i / cfg.nRows : Nat) (i % cfg.nRows : Nat) = i)

/-! ### The frame-buffer commands -/

/-- R82: SET on a coordinate the indexer maps to chip `k`, bit `j` completes, writes the byte of R82's
pseudocode to `FB[k]`, and changes nothing else; on a coordinate whose translation fails it completes and
changes nothing. Its canonical word, where `c & 0xFF` is taken of the coordinate's 32-bit pattern. -/
def Obligations.SetWritesOneBit : Prop :=
  (∀ (c r : Int) (v : Bool),
    encode (.set c r v) =
      0x01000000#32 ||| (if v then 0x00010000#32 else 0#32) |||
        ((BitVec.ofInt 32 c &&& 0xFF#32) <<< 8) ||| (BitVec.ofInt 32 r &&& 0xFF#32)) ∧
  (∀ (s : State) (c r : Int) (v : Bool), translate s.cfg c r = none → exec (.set c r v) s = .next s) ∧
  ∀ (s : State) (c r : Int) (v : Bool) (k j : Nat), s.fb.wf →
    0 ≤ c → c < s.cfg.nCols → 0 ≤ r → r < s.cfg.nRows →
    k < s.cfg.nChips → j < 8 → c * s.cfg.nRows + r = 8 * (k : Int) + j →
    ∃ t, exec (.set c r v) s = .next t ∧
      t.fb.read k = (if v then s.fb.read k ||| (1#8 <<< j) else s.fb.read k &&& ~~~(1#8 <<< j)) ∧
      t.fb = bitWrite s.fb (8 * k + j) v ∧ bitRead t.fb (8 * k + j) = v ∧
      (∀ i, i ≠ 8 * k + j → bitRead t.fb i = bitRead s.fb i) ∧
      (∀ k', k' ≠ k → t.fb.read k' = s.fb.read k') ∧
      t = { s with fb := t.fb }

/-- R83: SET with a coordinate outside the grid in either axis completes and changes nothing. -/
def Obligations.SetOutOfRangeChangesNothing : Prop :=
  ∀ (s : State) (c r : Int) (v : Bool),
    (c < 0 ∨ s.cfg.nCols ≤ c ∨ r < 0 ∨ s.cfg.nRows ≤ r) → exec (.set c r v) s = .next s

/-- R84: SET of a grid pixel whose chip index is not below `N_CHIPS` completes and changes nothing, and
that needs a configuration that violates `N_CHIPS*8 >= N_COLS*N_ROWS`, which this hardware's does not. -/
def Obligations.SetBeyondTheChainChangesNothing : Prop :=
  (∀ (s : State) (c r : Int) (v : Bool),
    0 ≤ c → c < s.cfg.nCols → 0 ≤ r → r < s.cfg.nRows →
    (s.cfg.nChips : Int) ≤ (c * s.cfg.nRows + r) / 8 →
      exec (.set c r v) s = .next s ∧ ¬ s.cfg.Provisioned) ∧
  Config.hardware.Provisioned

/-- R85, for coordinates whose translation succeeds: read-back, frame, idempotence, last write wins,
commutation, and a write of the value a bit already has changes nothing. -/
def Obligations.SetLaws : Prop :=
  ∀ (s : State) (c r : Int) (v : Bool) (k j : Nat), s.fb.wf → translate s.cfg c r = some (k, j) →
    (∃ t, exec (.set c r v) s = .next t ∧ bitRead t.fb (linearIndex s.cfg c r) = v ∧
      ∀ i, i ≠ linearIndex s.cfg c r → bitRead t.fb i = bitRead s.fb i) ∧
    execSeq [.set c r v, .set c r v] s = execSeq [.set c r v] s ∧
    (∀ v', execSeq [.set c r v, .set c r v'] s = execSeq [.set c r v'] s) ∧
    (∀ (c' r' : Int) (v' : Bool) (k' j' : Nat), translate s.cfg c' r' = some (k', j') →
      (c, r) ≠ (c', r') →
      execSeq [.set c r v, .set c' r' v'] s = execSeq [.set c' r' v', .set c r v] s) ∧
    (bitRead s.fb (linearIndex s.cfg c r) = v → exec (.set c r v) s = .next s)

/-- R86: CLEAR_ALL completes with every byte and every bit 0 and nothing else changed; on an already
clear buffer it changes nothing; its canonical word, and bits 23:0 ignored. -/
def Obligations.ClearAllClearsEveryByte : Prop :=
  (∀ s : State, ∃ t, exec .clearAll s = .next t ∧
    (∀ k, t.fb.read k = 0x00#8) ∧ (∀ i, bitRead t.fb i = false) ∧ t = { s with fb := t.fb } ∧
    (s.fb.wf → (∀ k, s.fb.read k = 0x00#8) → t = s)) ∧
  encode .clearAll = 0x02000000#32 ∧ ∀ w : Word, w.toNat / 2 ^ 24 = 2 → decode w = .instr .clearAll

/-- R86's pseudocode: writing 0x00 to `FB[0]` to `FB[N_CHIPS-1]` in turn gives the cleared buffer. -/
def Obligations.ClearAllIsTheByteLoop : Prop :=
  ∀ s : State, s.fb.wf → s.fb.within s.cfg.nChips →
    exec .clearAll s =
      .next { s with fb := (List.range s.cfg.nChips).foldl (fun m k => m.write k 0x00#8) s.fb }

/-- R80: NOP completes and the state after equals the state before; its canonical word; any word
`0x00xxxxxx` is a NOP; a word with a reserved operation code behaves identically. -/
def Obligations.NopChangesNothing : Prop :=
  (∀ s : State, exec .nop s = .next s) ∧ encode .nop = 0x00000000#32 ∧
  (∀ w : Word, w.toNat / 2 ^ 24 = 0 → decode w = .instr .nop) ∧
  ∀ (s : State) (w : Word) (op : BitVec 8), s.seq = .idle →
    s.portNow = { rst := false, cmdValid := true, cmdWord := w } → decode w = .reserved op →
    step s = exec .nop { s with host := s.host.tail }

/-- R64: a word with a reserved operation code is accepted like any other command and changes nothing. -/
def Obligations.ReservedWordExecutesAsNop : Prop :=
  ∀ (s : State) (w : Word), s.seq = .idle →
    s.portNow = { rst := false, cmdValid := true, cmdWord := w } → 4 ≤ w.toNat / 2 ^ 24 →
    s.accepts = true ∧ step s = .next { s with host := s.host.tail }

/-- R108: TRANSMIT completes its accepting edge with `SEQ = Run(0, 0)` and nothing else changed; from then
on `cmd_ready = 0` and `busy = 1`. Its canonical word, and bits 23:0 ignored (R100). -/
def Obligations.TransmitStartsTheSequencer : Prop :=
  (∀ s : State, exec .transmit s = .next { s with seq := .run 0 0 } ∧
    ∀ t, exec .transmit s = .next t → t.cmdReady = false ∧ t.busy = true) ∧
  encode .transmit = 0x03000000#32 ∧ ∀ w : Word, w.toNat / 2 ^ 24 = 3 → decode w = .instr .transmit

/-- R81: an accepted frame-buffer command (NOP, SET, CLEAR_ALL) executes whole at its edge, leaves the
lines, the sequencer, the chain and the configuration alone, and leaves the block ready; no command is
accepted during a transfer. -/
def Obligations.FrameCommandsLeaveLinesAndSequencer : Prop :=
  (∀ s : State, s.seq ≠ .idle → s.accepts = false) ∧
  ∀ (s : State) (w : Word) (i : Instr), s.seq = .idle →
    s.portNow = { rst := false, cmdValid := true, cmdWord := w } → decode w = .instr i →
    i ≠ .transmit →
    ∃ t u, step s = .next t ∧ exec i s = .next u ∧ t.fb = u.fb ∧
      t.data = s.data ∧ t.clock = s.clock ∧ t.latch = s.latch ∧ t.seq = .idle ∧
      t.cmdReady = true ∧ t.chain = s.chain ∧ t.cfg = s.cfg ∧ t.host = s.host.tail

/-! ### The step -/

/-- When the word the host presents to an idle block decodes to a command, the step is that command's
meaning on the state past the edge's input (R110, R25). -/
def Obligations.StepRunsTheDecodedCommand : Prop :=
  ∀ (s : State) (w : Word) (i : Instr), s.seq = .idle →
    s.portNow = { rst := false, cmdValid := true, cmdWord := w } → decode w = .instr i →
    s.accepts = true ∧ step s = exec i { s with host := s.host.tail }

/-- The word `withFetchWord` places is the one the next step runs (the model's convention of log entry 6:
a program is presented from outside the machine). -/
def Obligations.FetchedWordRunsNext : Prop :=
  ∀ (s : State) (nbits w : Nat) (i : Instr), decodeTableWord nbits w = some i →
    step (s.withFetchWord nbits w) = exec i { s with seq := .idle }

/-- R170: an edge with `rst = 1` gives the reset state whatever the state and the command port were; the
lines make no rising edge (R173), and the chain and the configuration are not reached (R133). -/
def Obligations.ResetWinsOverEverything : Prop :=
  ∀ s : State, s.portNow.rst = true →
    ∃ t, step s = .next t ∧ (∀ k, t.fb.read k = 0x00#8) ∧ t.fb = Memory.cleared ∧
      t.data = false ∧ t.clock = false ∧ t.latch = false ∧ t.seq = .idle ∧
      t.cmdReady = true ∧ t.busy = false ∧
      risingEdge s.data t.data = false ∧ risingEdge s.clock t.clock = false ∧
      risingEdge s.latch t.latch = false ∧
      t.chain = s.chain ∧ t.cfg = s.cfg ∧ t.host = s.host.tail

/-- R26 and R154: during a transfer the command port has no influence on the step; a presented command is
not accepted, and the host still holds it after the edge. -/
def Obligations.RunningTransferIgnoresTheCommandPort : Prop :=
  ∀ (s : State) (upc tick : Nat) (v v' : Bool) (w w' : Word) (rest : List HostAct),
    s.seq = .run upc tick →
    step { s with host := .drive { rst := false, cmdValid := v, cmdWord := w } :: rest } =
      step { s with host := .drive { rst := false, cmdValid := v', cmdWord := w' } :: rest } ∧
    ({ s with host := .present w :: rest } : State).accepts = false ∧
    ∀ t, step { s with host := .present w :: rest } = .next t →
      t.host = .present w :: rest ∧
      step { s with host := .drive { rst := false, cmdValid := v, cmdWord := w' } :: rest } =
        .next { t with host := rest }

/-- R110, R163: with no reset and no command an idle block holds all its state. -/
def Obligations.IdleBlockHoldsItsState : Prop :=
  ∀ s : State, s.seq = .idle → s.portNow.rst = false → s.portNow.cmdValid = false →
    step s = .next { s with host := s.host.tail }

/-- R109: a write micro-operation takes one edge, gives its line its level, leaves the other two lines,
the frame buffer and the configuration alone, and moves `SEQ` on, to Idle after the last one. -/
def Obligations.WriteMicroOperationTakesOneEdge : Prop :=
  ∀ (s : State) (upc : Nat) (line : Line) (v : Bool), s.seq = .run upc 0 → s.portNow.rst = false →
    microOp s.cfg.nChips s.fb upc = some (.write line v) →
    ∃ t, step s = .next t ∧ t.lineLevel line = v ∧
      (∀ l, l ≠ line → t.lineLevel l = s.lineLevel l) ∧
      t.seq = (if upc = 40 * s.cfg.nChips + 5 - 1 then .idle else .run (upc + 1) 0) ∧
      t.fb = s.fb ∧ t.cfg = s.cfg

/-- R111: a hold changes no line and no chain stage and moves `SEQ` on at its edge `T_UNIT - 1`; the last
micro-operation of a transfer is no hold; and from the write before a hold to the write after it there are
`T_UNIT + 1` clock periods. -/
def Obligations.HoldMicroOperationCountsTimingUnit : Prop :=
  (∀ (s : State) (upc tick : Nat), s.seq = .run upc tick → s.portNow.rst = false →
    microOp s.cfg.nChips s.fb upc = some .hold →
    ∃ t, step s = .next t ∧
      (∀ l, t.lineLevel l = s.lineLevel l) ∧ t.chain = s.chain ∧ t.fb = s.fb ∧ t.cfg = s.cfg ∧
      t.seq = (if tick = s.cfg.tUnit - 1 then .run (upc + 1) 0 else .run upc (tick + 1))) ∧
  (∀ (n : Nat) (fb : Memory), microOp n fb (40 * n + 5 - 1) ≠ some .hold) ∧
  ∀ (cfg : Config) (fb : Memory) (upc : Nat), microOp cfg.nChips fb (upc + 1) = some .hold →
    (∃ l v, microOp cfg.nChips fb upc = some (.write l v)) ∧
    (∃ l v, microOp cfg.nChips fb (upc + 2) = some (.write l v)) ∧
    edgesFor cfg fb (upc + 3) = edgesFor cfg fb (upc + 1) + (cfg.tUnit + 1)

/-- R150: the step has a next state for every state of R33 (`upc < L`) and every input. -/
def Obligations.StepIsTotal : Prop :=
  ∀ s : State, (∀ upc tick, s.seq = .run upc tick → upc < 40 * s.cfg.nChips + 5) →
    ∃ t, step s = .next t

/-- The model's own stop (log entry 8): with no reset, a micro-operation index R33's type excludes is the
named fault. -/
def Obligations.IndexOutOfRangeFaults : Prop :=
  ∀ (s : State) (upc tick : Nat), s.seq = .run upc tick → s.portNow.rst = false →
    40 * s.cfg.nChips + 5 ≤ upc → step s = .fault (.microOpIndexOutOfRange upc)

/-- R22: the frame buffer changes only at a reset or at the acceptance of a SET or a CLEAR_ALL. -/
def Obligations.OnlySetClearAllAndResetWriteTheBuffer : Prop :=
  ∀ s t : State, step s = .next t → t.fb ≠ s.fb →
    s.portNow.rst = true ∨
    (s.accepts = true ∧ ((∃ c r v, decode s.portNow.cmdWord = .instr (.set c r v)) ∨
      decode s.portNow.cmdWord = .instr .clearAll))

/-- R23, R109: a line changes only at a reset or at a write micro-operation of a running transfer, and then
it is that line, to that level, and the other two lines keep theirs. -/
def Obligations.OnlyMicroOperationsAndResetWriteTheLines : Prop :=
  ∀ (s t : State) (line : Line), step s = .next t → t.lineLevel line ≠ s.lineLevel line →
    s.portNow.rst = true ∨
    ∃ upc tick, s.seq = .run upc tick ∧
      microOp s.cfg.nChips s.fb upc = some (.write line (t.lineLevel line)) ∧
      ∀ l, l ≠ line → t.lineLevel l = s.lineLevel l

/-- R8, R29: no step changes a build-time parameter. That the chain keeps its length rests on the chain's model
(R130, R131, R132; log entry 10), not on R8. -/
def Obligations.NoStepChangesTheConfiguration : Prop :=
  ∀ s t : State, step s = .next t →
    t.cfg = s.cfg ∧ t.chain.sr.length = s.chain.sr.length

/-- R131, with what R131 supplies from general knowledge (spec/93_implementation_defined.md G3): the shift
stages move at a rising edge of CLOCK, taking DATA in at stage 0, and at no other step. -/
def Obligations.ChainShiftsExactlyOnRisingClock : Prop :=
  ∀ s t : State, step s = .next t →
    (s.clock = false → t.clock = true →
      t.chain.sr.length = s.chain.sr.length ∧
      (0 < s.chain.sr.length → t.chain.sr[0]? = some s.data) ∧
      (∀ i, i + 1 < s.chain.sr.length → t.chain.sr[i + 1]? = s.chain.sr[i]?) ∧
      t.data = s.data) ∧
    (¬ (s.clock = false ∧ t.clock = true) → t.chain.sr = s.chain.sr)

/-- R132: at a rising edge of LATCH every output stage takes its shift stage's level, all at once, and at no
other step does an output change. That the shift stages stay at that edge is R131's part from general
knowledge (spec/93_implementation_defined.md G3, log entry 10), not R132. -/
def Obligations.ChainOutputsChangeExactlyOnRisingLatch : Prop :=
  ∀ s t : State, step s = .next t →
    (s.latch = false → t.latch = true → t.chain.out = s.chain.sr ∧ t.chain.sr = s.chain.sr) ∧
    (¬ (s.latch = false ∧ t.latch = true) → t.chain.out = s.chain.out)

/-- R27: `fb_q[i] = BitRead(i)` and `fb_q[8*k+7 : 8*k] = FB[k]`. -/
def Obligations.ReadBackPortShowsTheBuffer : Prop :=
  ∀ s : State,
    (∀ i, i < 8 * s.cfg.nChips → s.fbQ.getLsbD i = bitRead s.fb i) ∧
    (∀ k, k < s.cfg.nChips → s.fbQ.extractLsb' (8 * k) 8 = s.fb.read k)

/-! ### The transfer at the event level -/

/-- R104: `MicroOp(FB, upc)` is element `upc` of `MicroOps(FB)`, which has `40*N_CHIPS + 5` elements, and
bit cell `m` carries linear index `8*N_CHIPS - 1 - m`. -/
def Obligations.MicroOperationIndexing : Prop :=
  ∀ (n : Nat) (fb : Memory),
    (microOps n fb).length = 40 * n + 5 ∧
    (∀ upc, (microOps n fb)[upc]? = microOp n fb upc) ∧
    (∀ m, m < 8 * n →
      microOp n fb (5 * m) = some (.write .clock false) ∧
      microOp n fb (5 * m + 1) = some (.write .data (bitRead fb (8 * n - 1 - m))) ∧
      microOp n fb (5 * m + 2) = some .hold ∧
      microOp n fb (5 * m + 3) = some (.write .clock true) ∧
      microOp n fb (5 * m + 4) = some .hold)

/-- R105: the counts of writes, holds and line edges of one transfer, from LATCH low (R34 item 2) and
either level of CLOCK; and DATA never changes while CLOCK is high within it. -/
def Obligations.TransferCounts : Prop :=
  ∀ (s : State) (ops : List MicroOp), s.latch = false → ops = microOps s.cfg.nChips s.fb →
    (ops.filter MicroOp.isWrite).length = 24 * s.cfg.nChips + 3 ∧
    ops.count (.write .clock false) = 8 * s.cfg.nChips ∧
    (ops.filter (MicroOp.writesLine .data)).length = 8 * s.cfg.nChips ∧
    ops.count (.write .clock true) = 8 * s.cfg.nChips ∧
    (ops.filter (MicroOp.writesLine .latch)).length = 3 ∧
    ops.count .hold = 16 * s.cfg.nChips + 2 ∧
    s.risingEdges .clock ops = 8 * s.cfg.nChips ∧
    s.risingEdges .latch ops = 1 ∧
    s.fallingEdges .latch ops = 1 ∧
    ∀ m, (s.runMicroOps (ops.take (m + 1))).data ≠ (s.runMicroOps (ops.take m)).data →
      (s.runMicroOps (ops.take m)).clock = false ∧ (s.runMicroOps (ops.take (m + 1))).clock = false

/-- R117: the levels of DATA at the rising edges of CLOCK are the frame buffer's bits from the highest
linear index down to 0, that is, the bytes `FB[N-1]` to `FB[0]`, each bit 7 first. -/
def Obligations.StreamLaw : Prop :=
  ∀ s : State,
    s.capturedData (microOps s.cfg.nChips s.fb) =
      (List.range (8 * s.cfg.nChips)).map (fun m => bitRead s.fb (8 * s.cfg.nChips - 1 - m)) ∧
    s.capturedData (microOps s.cfg.nChips s.fb) =
      (List.range (8 * s.cfg.nChips)).map
        (fun m => (s.fb.read (s.cfg.nChips - 1 - m / 8)).getLsbD (7 - m % 8))

/-- R106: the line levels at the end of a transfer, whatever the levels at its entry (R107); the transfer
changes nothing but the lines and the chain. -/
def Obligations.LineLevelsAtTheEndOfATransfer : Prop :=
  ∀ s : State, 1 ≤ s.cfg.nChips →
    s.transmitFrame.data = (s.fb.read 0).getLsbD 0 ∧ s.transmitFrame.clock = true ∧
    s.transmitFrame.latch = false ∧
    s.transmitFrame =
      { s with
        data := s.transmitFrame.data, clock := s.transmitFrame.clock
        latch := s.transmitFrame.latch, chain := s.transmitFrame.chain }

/-- R136: what a transfer leaves in a chain of any length. A longer chain keeps in its far chips what the
near ones held; a shorter one shows the low bytes only. What SR holds rests on the chain's model, in which
nothing but a rising edge of CLOCK moves it (spec/93_implementation_defined.md G3, log entry 10). -/
def Obligations.TransferOnAChainOfAnyLength : Prop :=
  ∀ s : State, s.latch = false →
    s.transmitFrame.chain.sr.length = s.chain.sr.length ∧
    s.transmitFrame.chain.out = s.transmitFrame.chain.sr ∧
    (∀ i, i < s.chain.sr.length → i < 8 * s.cfg.nChips →
      s.transmitFrame.chain.sr[i]? = some (bitRead s.fb i)) ∧
    (∀ i, i < s.chain.sr.length → 8 * s.cfg.nChips ≤ i →
      s.transmitFrame.chain.sr[i]? = s.chain.sr[i - 8 * s.cfg.nChips]?)

/-- R118: with a chain no longer than the buffer, a second TRANSMIT with no mutation between sends the
same frame and leaves everything as the first one did. The chain's part rests on
spec/93_implementation_defined.md G3 (log entry 10). -/
def Obligations.TransmitTwiceIsTransmitOnce : Prop :=
  ∀ s : State, 1 ≤ s.cfg.nChips → s.latch = false → s.chain.sr.length ≤ 8 * s.cfg.nChips →
    s.transmitFrame.transmitFrame = s.transmitFrame ∧
    s.transmitFrame.capturedData (microOps s.cfg.nChips s.transmitFrame.fb) =
      s.capturedData (microOps s.cfg.nChips s.fb)

/-- R183: after a transfer from an idle state of the invariant, every output that no pixel uses is low. It
rests on R135 and so on spec/93_implementation_defined.md G3 (log entry 10). -/
def Obligations.UnusedOutputsAreDrivenLow : Prop :=
  ∀ s : State, s.Inv → s.seq = .idle → ∀ i, s.cfg.nCols * s.cfg.nRows ≤ i →
    i < 8 * s.cfg.nChips → i < s.chain.sr.length →
    s.transmitFrame.chain.out[i]? = some false

/-! ### The transfer at the cycle level -/

/-- The cycle level does what the event level says (R9, R102, R109, R111): from the acceptance of a
TRANSMIT, whether the host drives it for one edge or holds it, with no reset, after the edges of the first
`m` micro-operations the machine is where executing those micro-operations in order leaves it, with `SEQ`
at the next one. -/
def Obligations.CycleLevelRefinesEventLevel : Prop :=
  ∀ (s : State) (w : Word) (m : Nat), s.cfg.Valid → s.seq = .idle →
    s.portNow = { rst := false, cmdValid := true, cmdWord := w } → decode w = .instr .transmit →
    noReset s.host.tail → m ≤ 40 * s.cfg.nChips + 5 →
    ∃ t, runEdges (1 + edgesFor s.cfg s.fb m) s = .next t ∧
      t.withoutHost =
        { (s.runMicroOps ((microOps s.cfg.nChips s.fb).take m)).withoutHost with
          seq := if m = 40 * s.cfg.nChips + 5 then .idle else .run m 0 }

/-- R112: a transfer ends at edge `E` after its acceptance, whatever the data and whether the host drove the
command for one edge or held it; `cmd_ready` is 0 until then
and 1 after it; micro-operation 0 executes at edge 1; for this hardware `E = 99 + 66*T_UNIT`. -/
def Obligations.TransferTakesExactlyEEdges : Prop :=
  (∀ (s : State) (w : Word), s.cfg.Valid → s.seq = .idle →
    s.portNow = { rst := false, cmdValid := true, cmdWord := w } → decode w = .instr .transmit →
    noReset s.host.tail →
    edgesFor s.cfg s.fb 1 = 1 ∧
    edgesFor s.cfg s.fb (40 * s.cfg.nChips + 5) =
      (24 * s.cfg.nChips + 3) + (16 * s.cfg.nChips + 2) * s.cfg.tUnit ∧
    (∀ e, e < (24 * s.cfg.nChips + 3) + (16 * s.cfg.nChips + 2) * s.cfg.tUnit →
      ∃ t, runEdges (1 + e) s = .next t ∧ t.cmdReady = false) ∧
    ∃ t, runEdges (1 + ((24 * s.cfg.nChips + 3) + (16 * s.cfg.nChips + 2) * s.cfg.tUnit)) s = .next t ∧
      t.cmdReady = true) ∧
  transferEdges Config.hardware = 99 + 66 * Config.hardware.tUnit

/-- R135: on a chain of `N_CHIPS` chips with any contents, one complete TRANSMIT leaves every shift stage and
every output stage `i` at `BitRead(i)`; the outputs keep the old frame up to the one rising edge of LATCH
and show the new one from that edge on; the frame buffer is unchanged. R135 depends on
spec/93_implementation_defined.md G3 (log entry 10): nothing but a rising edge of CLOCK moves the chain. -/
def Obligations.TransmitShowsTheFrameOnTheChain : Prop :=
  ∀ (s : State) (w : Word) (frame : List Bool), s.cfg.Valid → s.seq = .idle →
    s.latch = false → s.chain.wf → s.chain.sr.length = 8 * s.cfg.nChips →
    s.portNow = { rst := false, cmdValid := true, cmdWord := w } → decode w = .instr .transmit →
    noReset s.host.tail →
    frame = (List.range (8 * s.cfg.nChips)).map (bitRead s.fb) →
    (∃ t, runEdges (1 + transferEdges s.cfg) s = .next t ∧ t.seq = .idle ∧ t.fb = s.fb ∧
      t.chain.sr = frame ∧ t.chain.out = frame) ∧
    ∀ (e : Nat) (t : State), e ≤ transferEdges s.cfg → runEdges (1 + e) s = .next t →
      t.chain.out =
        if e < edgesFor s.cfg s.fb (40 * s.cfg.nChips + 3) then s.chain.out else frame

/-- R116: the distances in clock periods between the micro-operations of a transfer. -/
def Obligations.WaveformDistances : Prop :=
  ∀ (cfg : Config) (fb : Memory), cfg.Valid →
    (∀ m, m < 8 * cfg.nChips →
      edgesFor cfg fb (5 * m + 4) = edgesFor cfg fb (5 * m + 2) + (cfg.tUnit + 1)) ∧
    (∀ m, m + 1 < 8 * cfg.nChips →
      edgesFor cfg fb (5 * (m + 1) + 2) = edgesFor cfg fb (5 * m + 4) + (cfg.tUnit + 2) ∧
      edgesFor cfg fb (5 * (m + 1) + 1) = edgesFor cfg fb (5 * m + 4) + (cfg.tUnit + 1) ∧
      edgesFor cfg fb (5 * (m + 1) + 4) = edgesFor cfg fb (5 * (m + 1) + 1) + (cfg.tUnit + 2) ∧
      edgesFor cfg fb (5 * (m + 1) + 1) = edgesFor cfg fb (5 * m + 1) + (2 * cfg.tUnit + 3)) ∧
    edgesFor cfg fb (40 * cfg.nChips + 3) =
      edgesFor cfg fb (40 * cfg.nChips - 1) + (2 * cfg.tUnit + 2) ∧
    edgesFor cfg fb (40 * cfg.nChips + 5) = edgesFor cfg fb (40 * cfg.nChips + 3) + (cfg.tUnit + 1)

/-! ### Invariants and reachable states -/

/-- The invariant holds at reset: at this hardware's reset state, and after a reset with any parameters R6
admits, any chain and any schedule of the host (R32). -/
def Obligations.ResetMeetsTheInvariant : Prop :=
  State.reset.Inv ∧ ∀ s : State, s.AfterReset → s.Inv

/-- Every step keeps the invariant: R33's types, R34 items 1 to 3, the line levels of each phase of a
transfer and the canonical form of the frame buffer. -/
def Obligations.StepKeepsTheInvariant : Prop :=
  ∀ s t : State, s.Inv → step s = .next t → t.Inv

/-- R34: its five items hold in every reachable state. The form over single steps is
`StepKeepsTheHistoryInvariant`. -/
def Obligations.ReachableStatesMeetTheRules : Prop :=
  ∀ (h : Option Bool) (s : State), History h s →
    (∀ i, s.cfg.nCols * s.cfg.nRows ≤ i → i < 8 * s.cfg.nChips → bitRead s.fb i = false) ∧
    (s.seq = .idle → s.latch = false) ∧
    (∀ upc tick, s.seq = .run upc tick →
      (s.latch = true ↔ upc = 40 * s.cfg.nChips + 3 ∨ upc = 40 * s.cfg.nChips + 4)) ∧
    (∀ t, s.seq ≠ .idle → s.portNow.rst = false → step s = .next t → t.fb = s.fb) ∧
    (∀ d, h = some d → s.seq = .idle → s.clock = true ∧ s.data = d)

/-- Between a reset and the end of the first transfer an idle block has CLOCK low
(spec/93_implementation_defined.md U3, spec/90_conflicts.md C3) and DATA low (R32, R23: reset makes it low
and only a transfer writes it). -/
def Obligations.LinesAreLowBeforeTheFirstTransfer : Prop :=
  ∀ s : State, History none s → s.seq = .idle → s.clock = false ∧ s.data = false

/-- R150 for runs: a reachable state always has a next state. The form over states is `StepIsTotal`. -/
def Obligations.ReachableStatesNeverStop : Prop :=
  ∀ s : State, Reachable s → ∃ t, step s = .next t

/-- R103, R138: within a transfer DATA changes only while CLOCK is low and stays low, so DATA never changes
at or after a capturing edge of its bit cell. -/
def Obligations.DataIsStableWhileClockIsHigh : Prop :=
  ∀ s t : State, s.Inv → s.portNow.rst = false → step s = .next t → t.data ≠ s.data →
    s.clock = false ∧ t.clock = false

/-- R32: the invariant with the history of transfers holds after every reset, with no transfer completed. -/
def Obligations.ResetMeetsTheHistoryInvariant : Prop :=
  State.reset.InvWithHistory none ∧ ∀ s : State, s.AfterReset → s.InvWithHistory none

/-- R34 as one step: every step keeps the invariant together with what R34 item 5 says of the lines after a
completed transfer, and with the levels of reset before the first one (R32, spec/90_conflicts.md C3). -/
def Obligations.StepKeepsTheHistoryInvariant : Prop :=
  ∀ (h : Option Bool) (s t : State), s.InvWithHistory h → step s = .next t →
    t.InvWithHistory (historyAfter h s)
end

