-- ==== Sys2Proof/Laws/Decode.lean ====
section
/-! SUPPORT. The fields of a word of format C, and the coordinate field read back. -/

namespace Sys2Proof

variable (op : BitVec 8) (ign : BitVec 7) (v : Bool) (col row : BitVec 8)

/-- A word of format C with any ignored bits; `formatC` is the one with them 0. -/
theorem formatC_eq : formatC op v col row = op ++ 0#7 ++ BitVec.ofBool v ++ col ++ row := rfl

theorem opField_append :
    opField (op ++ ign ++ BitVec.ofBool v ++ col ++ row : BitVec 32) = op := by
  apply BitVec.eq_of_getLsbD_eq
  intro i hi
  simp only [opField, BitVec.getLsbD_extractLsb', BitVec.getLsbD_append]
  simp [hi, show ¬ 24 + i < 8 by omega, show ¬ 24 + i - 8 < 8 by omega, show ¬ 24 + i - 8 - 8 < 1 by omega,
    show ¬ 24 + i - 8 - 8 - 1 < 7 by omega, show 24 + i - 8 - 8 - 1 - 7 = i by omega]

theorem colField_append :
    colField (op ++ ign ++ BitVec.ofBool v ++ col ++ row : BitVec 32) = col := by
  apply BitVec.eq_of_getLsbD_eq
  intro i hi
  simp only [colField, BitVec.getLsbD_extractLsb', BitVec.getLsbD_append]
  simp [hi]

theorem rowField_append :
    rowField (op ++ ign ++ BitVec.ofBool v ++ col ++ row : BitVec 32) = row := by
  apply BitVec.eq_of_getLsbD_eq
  intro i hi
  simp only [rowField, BitVec.getLsbD_extractLsb', BitVec.getLsbD_append]
  simp [hi]

theorem valField_append :
    valField (op ++ ign ++ BitVec.ofBool v ++ col ++ row : BitVec 32) = v := by
  simp only [valField, BitVec.getLsbD_append, BitVec.getLsbD_ofBool]
  simp

/-- A word is its five fields. -/
theorem append_fields (w : Word) :
    opField w ++ w.extractLsb' 17 7 ++ BitVec.ofBool (valField w) ++ colField w ++ rowField w = w := by
  apply BitVec.eq_of_getLsbD_eq
  intro i hi
  simp only [opField, colField, rowField, valField, BitVec.getLsbD_append, BitVec.getLsbD_extractLsb',
    BitVec.getLsbD_ofBool]
  split
  · simp_all
  · split
    · rename_i h1 h2
      simp only [h2, decide_true, Bool.true_and]
      congr 1; omega
    · split
      · rename_i h1 h2 h3
        have : i = 16 := by omega
        subst this; simp
      · split
        · rename_i h1 h2 h3 h4
          simp only [h4, decide_true, Bool.true_and]
          congr 1; omega
        · rename_i h1 h2 h3 h4
          rw [decide_eq_true (by omega), Bool.true_and]
          congr 1; omega

/-- The coordinate field of a coordinate that fits reads back as that coordinate. -/
theorem signedCoordinate_field {x : Int} (h : FitsCoordinate x) :
    signedCoordinate (coordinateField x) = x := by
  unfold signedCoordinate coordinateField
  rw [BitVec.toInt_ofInt]
  exact Int.bmod_eq_of_le (by omega) (by omega)

/-- Every coordinate field reads as a coordinate that fits. -/
theorem signedCoordinate_fits (b : BitVec 8) : FitsCoordinate (signedCoordinate b) := by
  have h1 := BitVec.le_toInt b
  have h2 := BitVec.toInt_lt (x := b)
  unfold FitsCoordinate signedCoordinate
  simp at h1 h2
  omega

/-- A coordinate field written again is itself. -/
theorem coordinateField_signed (b : BitVec 8) : coordinateField (signedCoordinate b) = b := by
  simp [coordinateField, signedCoordinate]

/-- The two's-complement reading of a field, by its leading bit (spec/30_encoding.md R62). -/
theorem signedCoordinate_eq (b : BitVec 8) :
    signedCoordinate b = if b.toNat < 128 then (b.toNat : Int) else (b.toNat : Int) - 256 := by
  unfold signedCoordinate
  rw [BitVec.toInt_eq_toNat_cond]
  split <;> split <;> omega

/-- What each operation code decodes to, as one case list. -/
theorem decode_cases (w : Word) :
    (opField w = 0x00#8 ∧ decode w = .instr .nop) ∨
    (opField w = 0x01#8 ∧ decode w = .instr
      (.set (signedCoordinate (colField w)) (signedCoordinate (rowField w)) (valField w))) ∨
    (opField w = 0x02#8 ∧ decode w = .instr .clearAll) ∨
    (opField w = 0x03#8 ∧ decode w = .instr .transmit) ∨
    (4 ≤ (opField w).toNat ∧ decode w = .reserved (opField w)) := by
  unfold decode
  split
  · rename_i h; exact .inl ⟨h, rfl⟩
  · split
    · rename_i h; exact .inr (.inl ⟨h, rfl⟩)
    · split
      · rename_i h; exact .inr (.inr (.inl ⟨h, rfl⟩))
      · split
        · rename_i h; exact .inr (.inr (.inr (.inl ⟨h, rfl⟩)))
        · rename_i h0 h1 h2 h3
          refine .inr (.inr (.inr (.inr ⟨?_, rfl⟩)))
          simp only [← BitVec.toNat_inj, BitVec.toNat_ofNat] at h0 h1 h2 h3
          omega

end Sys2Proof
end

