-- ==== Sys2Proof/Laws/Memory.lean ====
section
/-! SUPPORT. The frame buffer as memory: a read after a write, the canonical form every write keeps, and
equal reads are equal memories. -/

namespace Sys2Proof.Machine

@[simp] theorem read_nil (k : Nat) : Memory.read [] k = Memory.unlisted := rfl
@[simp] theorem read_cleared (k : Nat) : Memory.cleared.read k = Memory.unlisted := rfl
@[simp] theorem read_cons (c : Host.Cell) (m : Memory) (k : Nat) :
    Memory.read (c :: m) k = if c.1 = k then c.2 else Memory.read m k := rfl

/-- An index below every listed one reads as unlisted. -/
theorem read_of_lt {m : Memory} {k : Nat} (h : ∀ c ∈ m, k < c.1) : m.read k = Memory.unlisted := by
  induction m with
  | nil => rfl
  | cons c m ih =>
    have hc := h c (by simp)
    rw [read_cons, if_neg (by omega)]
    exact ih fun d hd => h d (by simp [hd])

/-- An index no entry lists reads as unlisted. -/
theorem read_of_not_listed {m : Memory} {k : Nat} (h : ∀ c ∈ m, c.1 ≠ k) : m.read k = Memory.unlisted := by
  induction m with
  | nil => rfl
  | cons c m ih =>
    rw [read_cons, if_neg (h c (by simp))]
    exact ih fun d hd => h d (by simp [hd])

theorem read_entry (k : Nat) (b : Byte) (m : Memory) (k' : Nat)
    (h : b = Memory.unlisted → k = k' → m.read k' = Memory.unlisted) :
    (Memory.entry k b m).read k' = if k = k' then b else m.read k' := by
  unfold Memory.entry
  split
  · rename_i hb
    split
    · rename_i hk; rw [h hb hk, hb]
    · rfl
  · rfl

/-- The frame of a sorted memory's head: later entries lie above it. -/
theorem wf_tail {c : Host.Cell} {m : Memory} (h : Memory.wf (c :: m)) :
    Memory.wf m ∧ (∀ d ∈ m, c.1 < d.1) ∧ c.2 ≠ Memory.unlisted :=
  ⟨⟨(List.pairwise_cons.1 h.1).2, fun d hd => h.2 d (by simp [hd])⟩,
    (List.pairwise_cons.1 h.1).1, h.2 c (by simp)⟩

/-- Everything a write does to a read. -/
theorem read_write {m : Memory} (h : m.wf) (k : Nat) (b : Byte) (k' : Nat) :
    (m.write k b).read k' = if k = k' then b else m.read k' := by
  induction m with
  | nil => exact read_entry k b [] k' fun _ _ => rfl
  | cons c m ih =>
    obtain ⟨hm, hlt, -⟩ := wf_tail h
    unfold Memory.write
    split
    · rename_i hk
      refine read_entry k b (c :: m) k' fun _ e => read_of_lt ?_
      rintro d (_ | ⟨_, hd⟩)
      · omega
      · have := hlt d hd; omega
    · split
      · rename_i hk
        rw [read_entry k b m k' fun _ e => read_of_lt fun d hd => by have := hlt d hd; omega]
        by_cases e : k = k'
        · simp [e]
        · simp [e, show c.1 ≠ k' by omega]
      · rename_i hge hne
        rw [read_cons, ih hm, read_cons]
        by_cases e : k = k'
        · rw [if_neg (by omega), if_pos e, if_pos e]
        · simp [e]

theorem read_write_same {m : Memory} (h : m.wf) (k : Nat) (b : Byte) : (m.write k b).read k = b := by
  simp [read_write h]

theorem read_write_other {m : Memory} (h : m.wf) {k k' : Nat} (b : Byte) (hk : k' ≠ k) :
    (m.write k b).read k' = m.read k' := by
  simp [read_write h, Ne.symm hk]

theorem mem_entry {k : Nat} {b : Byte} {m : Memory} {c : Host.Cell} (h : c ∈ Memory.entry k b m) :
    c = (k, b) ∨ c ∈ m := by
  unfold Memory.entry at h
  split at h
  · exact .inr h
  · simpa using h

/-- Where the entries of a written memory come from. -/
theorem mem_write {m : Memory} {k : Nat} {b : Byte} {c : Host.Cell} (h : c ∈ m.write k b) :
    c = (k, b) ∨ c ∈ m := by
  induction m with
  | nil => exact mem_entry h
  | cons d m ih =>
    unfold Memory.write at h
    split at h
    · exact mem_entry h
    · split at h
      · rcases mem_entry h with h | h
        · exact .inl h
        · exact .inr (by simp [h])
      · rcases List.mem_cons.1 h with h | h
        · exact .inr (by simp [h])
        · rcases ih h with h | h
          · exact .inl h
          · exact .inr (by simp [h])

theorem entry_wf {m : Memory} (h : m.wf) {k : Nat} (b : Byte) (hk : ∀ c ∈ m, k < c.1) :
    (Memory.entry k b m).wf := by
  unfold Memory.entry
  split
  · exact h
  · rename_i hb
    refine ⟨List.pairwise_cons.2 ⟨fun c hc => hk c hc, h.1⟩, ?_⟩
    rintro c (_ | ⟨_, hc⟩)
    · exact hb
    · exact h.2 c hc

/-- A write keeps the canonical form. -/
theorem write_wf {m : Memory} (h : m.wf) (k : Nat) (b : Byte) : (m.write k b).wf := by
  induction m with
  | nil => exact entry_wf h b (by simp)
  | cons c m ih =>
    obtain ⟨hm, hlt, hc⟩ := wf_tail h
    unfold Memory.write
    split
    · refine entry_wf h b ?_
      rintro d (_ | ⟨_, hd⟩)
      · assumption
      · have := hlt d hd; omega
    · split
      · exact entry_wf hm b fun d hd => by have := hlt d hd; omega
      · refine ⟨List.pairwise_cons.2 ⟨fun d hd => ?_, (ih hm).1⟩, ?_⟩
        · rcases mem_write hd with rfl | hd
          · show c.1 < k; omega
          · exact hlt d hd
        · rintro d (_ | ⟨_, hd⟩)
          · exact hc
          · exact (ih hm).2 d hd

/-- A write to an existing byte keeps the memory within its bytes. -/
theorem write_within {m : Memory} {n k : Nat} (h : m.within n) (hk : k < n) (b : Byte) :
    (m.write k b).within n := by
  intro c hc
  rcases mem_write hc with rfl | hc
  · exact hk
  · exact h c hc

@[simp] theorem cleared_wf : Memory.cleared.wf := ⟨List.Pairwise.nil, by simp [Memory.cleared]⟩
@[simp] theorem cleared_within (n : Nat) : Memory.cleared.within n := by simp [Memory.cleared]

/-- The reset state's frame buffer is in canonical form. -/
theorem reset_fb_wf : State.reset.fb.wf := ⟨List.Pairwise.nil, by simp [State.reset]⟩

/-- Canonical memories that read the same everywhere are the same data. -/
theorem wf_ext {m m' : Memory} (h : m.wf) (h' : m'.wf) (e : ∀ k, m.read k = m'.read k) : m = m' := by
  induction m generalizing m' with
  | nil =>
    cases m' with
    | nil => rfl
    | cons c' m' =>
      have := e c'.1
      simp only [read_nil, read_cons, if_true] at this
      exact absurd this.symm (wf_tail h').2.2
  | cons c m ih =>
    obtain ⟨hm, hlt, hc⟩ := wf_tail h
    cases m' with
    | nil =>
      have := e c.1
      simp only [read_nil, read_cons, if_true] at this
      exact absurd this hc
    | cons c' m' =>
      obtain ⟨hm', hlt', hc'⟩ := wf_tail h'
      have h1 := e c.1
      have h2 := e c'.1
      simp only [read_cons, if_true] at h1 h2
      have hk : c.1 = c'.1 := by
        rcases Nat.lt_trichotomy c.1 c'.1 with hl | he | hl
        · rw [if_neg (by omega), read_of_lt fun d hd => by have := hlt' d hd; omega] at h1
          exact absurd h1 hc
        · exact he
        · rw [if_neg (by omega), read_of_lt fun d hd => by have := hlt d hd; omega] at h2
          exact absurd h2.symm hc'
      rw [if_pos hk.symm] at h1
      have hcc : c = c' := Prod.ext hk h1
      subst hcc
      have := ih hm hm' fun k => by
        have hek := e k
        simp only [read_cons] at hek
        by_cases hck : c.1 = k
        · rw [read_of_lt fun d hd => by have := hlt d hd; omega,
            read_of_lt fun d hd => by have := hlt' d hd; omega]
        · simpa [hck] using hek
      rw [this]

end Sys2Proof.Machine
end

