-- ==== Sys2Proof/Laws/Operands.lean ====
section
/-! SUPPORT. The indexer and the one-bit write: what a translation that succeeds or fails says, and what a bit
write does to every byte and every bit. -/

namespace Sys2Proof.Machine

/-- On a coordinate past the range test the linear index is exact (spec/20_memory.md R47). -/
theorem linearIndex_cast {cfg : Config} {c r : Int} (hc : 0 ≤ c) (hr : 0 ≤ r) :
    (linearIndex cfg c r : Int) = c * cfg.nRows + r := by
  have : 0 ≤ c * (cfg.nRows : Int) := Int.mul_nonneg hc (by omega)
  unfold linearIndex
  omega

/-- A coordinate inside the grid has a linear index below `N_COLS*N_ROWS`. -/
theorem linearIndex_lt {cfg : Config} {c r : Int} (hc : 0 ≤ c) (hc' : c < cfg.nCols) (hr : 0 ≤ r)
    (hr' : r < cfg.nRows) : linearIndex cfg c r < cfg.nCols * cfg.nRows := by
  have h1 := linearIndex_cast (cfg := cfg) hc hr
  have h2 : (c + 1) * (cfg.nRows : Int) ≤ cfg.nCols * cfg.nRows :=
    Int.mul_le_mul_of_nonneg_right (by omega) (by omega)
  have h3 : (c + 1) * (cfg.nRows : Int) = c * cfg.nRows + cfg.nRows := by ring
  have h4 : ((cfg.nCols * cfg.nRows : Nat) : Int) = cfg.nCols * cfg.nRows := by push_cast; rfl
  omega

/-- A coordinate outside the grid is dropped (spec/40_framebuffer_ops.md R83). -/
theorem translate_out_of_grid {cfg : Config} {c r : Int}
    (h : c < 0 ∨ cfg.nCols ≤ c ∨ r < 0 ∨ cfg.nRows ≤ r) : translate cfg c r = none := by
  unfold translate
  split
  · rfl
  · split
    · rfl
    · omega

/-- A grid coordinate is dropped or indexed by its chip index alone. -/
theorem translate_in_grid {cfg : Config} {c r : Int} (hc : 0 ≤ c) (hc' : c < cfg.nCols) (hr : 0 ≤ r)
    (hr' : r < cfg.nRows) :
    translate cfg c r =
      if cfg.nChips ≤ linearIndex cfg c r / 8 then none
      else some (linearIndex cfg c r / 8, linearIndex cfg c r % 8) := by
  unfold translate
  rw [if_neg (by omega), if_neg (by omega)]

/-- All that a successful translation says. -/
theorem translate_some {cfg : Config} {c r : Int} {k j : Nat} (h : translate cfg c r = some (k, j)) :
    (0 ≤ c ∧ c < cfg.nCols) ∧ (0 ≤ r ∧ r < cfg.nRows) ∧
      k = linearIndex cfg c r / 8 ∧ j = linearIndex cfg c r % 8 ∧ k < cfg.nChips := by
  unfold translate at h
  split at h
  · cases h
  · split at h
    · cases h
    · split at h
      · cases h
      · simp only [Option.some.injEq, Prod.mk.injEq] at h
        omega

/-- The mask has its one bit at `j`. -/
theorem bitMask_getLsbD {j : Nat} (hj : j < 8) (i : Nat) : (bitMask j).getLsbD i = decide (i = j) := by
  unfold bitMask
  rcases Nat.lt_or_ge i 8 with hi | hi
  · rw [BitVec.getLsbD_shiftLeft]
    by_cases h : i < j
    · simp [h, show i ≠ j by omega]
    · by_cases e : i = j
      · subst e; simp [hi]
      · have : i - j ≠ 0 := by omega
        simp [h, e, hi, BitVec.getLsbD_one, this]
  · rw [BitVec.getLsbD_of_ge _ _ hi]
    simp [show i ≠ j by omega]

/-- The byte of a bit write has bit `j` at `v` and every other bit unchanged. -/
theorem bitMask_update {j : Nat} (hj : j < 8) (b : Byte) (v : Bool) {i : Nat} (hi : i < 8) :
    (if v then b ||| bitMask j else b &&& ~~~(bitMask j)).getLsbD i =
      if i = j then v else b.getLsbD i := by
  cases v <;> by_cases e : i = j <;>
    simp only [if_true, Bool.false_eq_true, if_false, BitVec.getLsbD_or, BitVec.getLsbD_and,
      BitVec.getLsbD_not, bitMask_getLsbD hj, e, hi, hj, decide_true, decide_false, Bool.or_true,
      Bool.or_false, Bool.not_true, Bool.not_false, Bool.and_true, Bool.and_false]

/-- Bit `i'` of the flat vector after a write of bit `j` of chip `k` (spec/10_state.md R21). -/
theorem bitRead_writeBit {m : Memory} (h : m.wf) (k : Nat) {j : Nat} (hj : j < 8) (v : Bool) (i : Nat) :
    bitRead (m.writeBit k j v) i = if i = 8 * k + j then v else bitRead m i := by
  unfold bitRead Memory.writeBit
  rw [read_write h]
  by_cases hk : k = i / 8
  · rw [if_pos hk, bitMask_update hj _ _ (Nat.mod_lt _ (by omega)), hk]
    by_cases e : i % 8 = j
    · rw [if_pos e, if_pos (by omega)]
    · rw [if_neg e, if_neg (by omega)]
  · rw [if_neg hk, if_neg (by omega)]

/-- Memories with the same bits have the same bytes. -/
theorem read_eq_of_bitRead_eq {m m' : Memory} (h : ∀ i, bitRead m i = bitRead m' i) (k : Nat) :
    m.read k = m'.read k := by
  apply BitVec.eq_of_getLsbD_eq
  intro j hj
  have := h (8 * k + j)
  unfold bitRead at this
  rwa [show (8 * k + j) / 8 = k by omega, show (8 * k + j) % 8 = j by omega] at this

/-- Canonical memories with the same bits are the same data. -/
theorem wf_ext_bits {m m' : Memory} (h : m.wf) (h' : m'.wf) (e : ∀ i, bitRead m i = bitRead m' i) :
    m = m' :=
  wf_ext h h' (read_eq_of_bitRead_eq e)

theorem writeBit_wf {m : Memory} (h : m.wf) (k j : Nat) (v : Bool) : (m.writeBit k j v).wf :=
  write_wf h k _

theorem writeBit_within {m : Memory} {n k : Nat} (h : m.within n) (hk : k < n) (j : Nat) (v : Bool) :
    (m.writeBit k j v).within n :=
  write_within h hk _

@[simp] theorem bitRead_cleared (i : Nat) : bitRead Memory.cleared i = false := by
  simp [bitRead, Memory.unlisted]

/-- A bit of a chip that does not exist reads 0. -/
theorem bitRead_of_within {m : Memory} {n i : Nat} (h : m.within n) (hi : 8 * n ≤ i) :
    bitRead m i = false := by
  unfold bitRead
  rw [read_of_not_listed fun c hc => by have := h c hc; omega]
  simp [Memory.unlisted]

end Sys2Proof.Machine
end

