-- ==== Sys2Proof/Laws/PerInstr.lean ====
section
/-! SUPPORT. Families of statements about every command as syntax, one lemma per constructor. -/

namespace Sys2Proof.Laws.CanonicalWord

/-- The canonical word of a command matches the command's row of spec/opcode_table.json and has the row's
ignored bits 0. -/
def Statement (i : Instr) : Prop :=
  i.row ∈ opcodeTable ∧ i.row.holds (encode i) = true ∧ encode i &&& i.row.ignored = 0#32

theorem nop : Statement .nop := ⟨by decide, by decide, by decide⟩

theorem set (c r : Int) (v : Bool) : Statement (.set c r v) := by
  refine ⟨List.mem_cons_of_mem _ List.mem_cons_self, ?_⟩
  have h : ∀ (col row : BitVec 8) (v : Bool),
      formatC 0x01#8 v col row &&& 0xFF000000#32 = 0x01000000#32 ∧
      formatC 0x01#8 v col row &&& 0x00FE0000#32 = 0#32 := by
    intro col row v
    constructor <;>
    · apply BitVec.eq_of_getLsbD_eq
      intro i hi
      rw [formatC_eq]
      simp only [BitVec.getLsbD_and, BitVec.getLsbD_append, BitVec.getLsbD_ofBool]
      interval_cases i <;> simp
  exact ⟨by simpa [OpcodeRow.holds, Instr.row, encode] using (h _ _ v).1, (h _ _ v).2⟩

theorem clearAll : Statement .clearAll := ⟨by decide, by decide, by decide⟩

theorem transmit : Statement .transmit := ⟨by decide, by decide, by decide⟩

end Sys2Proof.Laws.CanonicalWord
end

