-- ==== Sys2Proof/Laws/State.lean ====
section
/-! SUPPORT. One lemma per field per update of State, so that later proofs unfold no record update. -/

namespace Sys2Proof.Machine

variable (s : State)

/-! ### `State.writeLine` -/

@[simp] theorem writeLine_fb (l : Line) (v : Bool) : (s.writeLine l v).fb = s.fb := by cases l <;> rfl
@[simp] theorem writeLine_seq (l : Line) (v : Bool) : (s.writeLine l v).seq = s.seq := by cases l <;> rfl
@[simp] theorem writeLine_cfg (l : Line) (v : Bool) : (s.writeLine l v).cfg = s.cfg := by cases l <;> rfl
@[simp] theorem writeLine_host (l : Line) (v : Bool) : (s.writeLine l v).host = s.host := by cases l <;> rfl

@[simp] theorem writeLine_data_data (v : Bool) : (s.writeLine .data v).data = v := rfl
@[simp] theorem writeLine_data_clock (v : Bool) : (s.writeLine .data v).clock = s.clock := rfl
@[simp] theorem writeLine_data_latch (v : Bool) : (s.writeLine .data v).latch = s.latch := rfl
@[simp] theorem writeLine_data_chain (v : Bool) : (s.writeLine .data v).chain = s.chain := rfl

@[simp] theorem writeLine_clock_data (v : Bool) : (s.writeLine .clock v).data = s.data := rfl
@[simp] theorem writeLine_clock_clock (v : Bool) : (s.writeLine .clock v).clock = v := rfl
@[simp] theorem writeLine_clock_latch (v : Bool) : (s.writeLine .clock v).latch = s.latch := rfl
@[simp] theorem writeLine_clock_chain (v : Bool) :
    (s.writeLine .clock v).chain = if risingEdge s.clock v then s.chain.shift s.data else s.chain := rfl

@[simp] theorem writeLine_latch_data (v : Bool) : (s.writeLine .latch v).data = s.data := rfl
@[simp] theorem writeLine_latch_clock (v : Bool) : (s.writeLine .latch v).clock = s.clock := rfl
@[simp] theorem writeLine_latch_latch (v : Bool) : (s.writeLine .latch v).latch = v := rfl
@[simp] theorem writeLine_latch_chain (v : Bool) :
    (s.writeLine .latch v).chain = if risingEdge s.latch v then s.chain.latchOutputs else s.chain := rfl

/-- The written line has the written level. -/
@[simp] theorem writeLine_lineLevel_self (l : Line) (v : Bool) : (s.writeLine l v).lineLevel l = v := by
  cases l <;> rfl

/-- The other two lines keep theirs. -/
theorem writeLine_lineLevel_other {l l' : Line} (v : Bool) (h : l' ≠ l) :
    (s.writeLine l v).lineLevel l' = s.lineLevel l' := by
  cases l <;> cases l' <;> first | rfl | exact absurd rfl h

/-! ### `State.blockReset` -/

@[simp] theorem blockReset_fb : s.blockReset.fb = Memory.cleared := rfl
@[simp] theorem blockReset_data : s.blockReset.data = false := rfl
@[simp] theorem blockReset_clock : s.blockReset.clock = false := rfl
@[simp] theorem blockReset_latch : s.blockReset.latch = false := rfl
@[simp] theorem blockReset_seq : s.blockReset.seq = .idle := rfl
@[simp] theorem blockReset_chain : s.blockReset.chain = s.chain := rfl
@[simp] theorem blockReset_cfg : s.blockReset.cfg = s.cfg := rfl
@[simp] theorem blockReset_host : s.blockReset.host = s.host := rfl

/-! ### `State.passEdge` -/

/-- The host's part of an edge changes the schedule alone. -/
theorem passEdge_eq : s.passEdge = { s with host := s.passEdge.host } := by
  unfold State.passEdge
  split <;> rfl

@[simp] theorem passEdge_fb : s.passEdge.fb = s.fb := by rw [passEdge_eq]
@[simp] theorem passEdge_data : s.passEdge.data = s.data := by rw [passEdge_eq]
@[simp] theorem passEdge_clock : s.passEdge.clock = s.clock := by rw [passEdge_eq]
@[simp] theorem passEdge_latch : s.passEdge.latch = s.latch := by rw [passEdge_eq]
@[simp] theorem passEdge_seq : s.passEdge.seq = s.seq := by rw [passEdge_eq]
@[simp] theorem passEdge_chain : s.passEdge.chain = s.chain := by rw [passEdge_eq]
@[simp] theorem passEdge_cfg : s.passEdge.cfg = s.cfg := by rw [passEdge_eq]
@[simp] theorem passEdge_lineLevel (l : Line) : s.passEdge.lineLevel l = s.lineLevel l := by
  cases l <;> simp [State.lineLevel]

/-- With no act left the schedule stays empty. -/
@[simp] theorem passEdge_host_nil (h : s.host = []) : s.passEdge.host = [] := by
  simp [State.passEdge, h]

/-- A driven edge is past after it. -/
theorem passEdge_host_drive {p : PortIn} {rest : List HostAct} (h : s.host = .drive p :: rest) :
    s.passEdge.host = rest := by
  simp [State.passEdge, h]

/-- A presented command leaves the schedule at the edge that accepts it, and not before. -/
theorem passEdge_host_present {w : Word} {rest : List HostAct} (h : s.host = .present w :: rest) :
    s.passEdge.host = if s.cmdReady then rest else .present w :: rest := by
  have hp : s.accepts = s.cmdReady := by simp [State.accepts, State.portNow, h, HostAct.port]
  simp [State.passEdge, h, hp]

/-! ### `State.microStep` -/

@[simp] theorem microStep_hold : s.microStep .hold = s := rfl
@[simp] theorem microStep_write (l : Line) (v : Bool) : s.microStep (.write l v) = s.writeLine l v := rfl
@[simp] theorem microStep_fb (op : MicroOp) : (s.microStep op).fb = s.fb := by cases op <;> simp
@[simp] theorem microStep_seq (op : MicroOp) : (s.microStep op).seq = s.seq := by cases op <;> simp
@[simp] theorem microStep_cfg (op : MicroOp) : (s.microStep op).cfg = s.cfg := by cases op <;> simp
@[simp] theorem microStep_host (op : MicroOp) : (s.microStep op).host = s.host := by cases op <;> simp

/-! ### `State.runMicroOps` -/

@[simp] theorem runMicroOps_nil : s.runMicroOps [] = s := rfl
@[simp] theorem runMicroOps_cons (op : MicroOp) (ops : List MicroOp) :
    s.runMicroOps (op :: ops) = (s.microStep op).runMicroOps ops := rfl

/-- Two lists of micro-operations executed one after the other. -/
theorem runMicroOps_append (ops ops' : List MicroOp) :
    s.runMicroOps (ops ++ ops') = (s.runMicroOps ops).runMicroOps ops' := by
  simp [State.runMicroOps]

@[simp] theorem runMicroOps_fb (ops : List MicroOp) : (s.runMicroOps ops).fb = s.fb := by
  induction ops generalizing s with
  | nil => rfl
  | cons op ops ih => simp [ih]

@[simp] theorem runMicroOps_seq (ops : List MicroOp) : (s.runMicroOps ops).seq = s.seq := by
  induction ops generalizing s with
  | nil => rfl
  | cons op ops ih => simp [ih]

@[simp] theorem runMicroOps_cfg (ops : List MicroOp) : (s.runMicroOps ops).cfg = s.cfg := by
  induction ops generalizing s with
  | nil => rfl
  | cons op ops ih => simp [ih]

@[simp] theorem runMicroOps_host (ops : List MicroOp) : (s.runMicroOps ops).host = s.host := by
  induction ops generalizing s with
  | nil => rfl
  | cons op ops ih => simp [ih]

/-! ### The chain -/

@[simp] theorem shift_out (d : Bool) (ch : Chain) : (ch.shift d).out = ch.out := rfl
@[simp] theorem shift_sr (d : Bool) (ch : Chain) : (ch.shift d).sr = (d :: ch.sr).take ch.sr.length := rfl
@[simp] theorem shift_sr_length (d : Bool) (ch : Chain) : (ch.shift d).sr.length = ch.sr.length := by
  simp
@[simp] theorem latchOutputs_out (ch : Chain) : ch.latchOutputs.out = ch.sr := rfl
@[simp] theorem latchOutputs_sr (ch : Chain) : ch.latchOutputs.sr = ch.sr := rfl

/-- A line write keeps both layers of the chain equally long. -/
theorem writeLine_chain_wf {l : Line} {v : Bool} (h : s.chain.out.length = s.chain.sr.length) :
    (s.writeLine l v).chain.sr.length = s.chain.sr.length ∧
      (s.writeLine l v).chain.out.length = s.chain.sr.length := by
  cases l with
  | data => exact ⟨rfl, h⟩
  | clock => simp only [writeLine_clock_chain]; split <;> simp [h]
  | latch => simp only [writeLine_latch_chain]; split <;> simp [h]

end Sys2Proof.Machine
end

