-- ==== Sys2Proof/Laws/Transmit.lean ====
section
/-! SUPPORT. The micro-operation list taken apart chip by chip, and what one bit cell, one byte and the latch
pulse do to the lines and the chain. -/

namespace Sys2Proof.Machine

/-! ### The list -/

@[simp] theorem microOps_zero (fb : Memory) : microOps 0 fb = latchPulse := rfl

/-- The transfer of `n + 1` chips sends chip `n` first (spec/41_serial_transmit.md R102). -/
theorem microOps_succ (n : Nat) (fb : Memory) :
    microOps (n + 1) fb = byteCells (fb.read n) ++ microOps n fb := by
  simp [microOps, List.range_succ]

@[simp] theorem byteCells_length (b : Byte) : (byteCells b).length = 40 := rfl
@[simp] theorem latchPulse_length : latchPulse.length = 5 := rfl

/-! ### The lines and the chain -/

/-- A bit cell leaves DATA at its bit and CLOCK high, and shifts the bit into the chain once, whatever the
levels before it were. -/
theorem runMicroOps_bitCell (s : State) (b : Bool) :
    s.runMicroOps (bitCell b) = { s with data := b, clock := true, chain := s.chain.shift b } := by
  cases hc : s.clock <;>
    simp [bitCell, State.runMicroOps, State.microStep, State.writeLine, risingEdge, hc]

/-- The latch pulse from LATCH low copies the shift stages to the outputs once and leaves LATCH low. -/
theorem runMicroOps_latchPulse (s : State) (h : s.latch = false) :
    s.runMicroOps latchPulse = { s with latch := false, chain := s.chain.latchOutputs } := by
  simp [latchPulse, State.runMicroOps, State.microStep, State.writeLine, risingEdge, h]

/-- Bits shifted into a chain one after another, the first one first. -/
def Chain.shiftAll (ch : Chain) (bits : List Bool) : Chain := bits.foldl (fun ch b => ch.shift b) ch

@[simp] theorem shiftAll_nil (ch : Chain) : ch.shiftAll [] = ch := rfl
@[simp] theorem shiftAll_cons (ch : Chain) (b : Bool) (bs : List Bool) :
    ch.shiftAll (b :: bs) = (ch.shift b).shiftAll bs := rfl

theorem shiftAll_append (ch : Chain) (bs bs' : List Bool) :
    ch.shiftAll (bs ++ bs') = (ch.shiftAll bs).shiftAll bs' := by
  simp [Chain.shiftAll]

/-- Shifted bits push the old contents along and drop what falls off the end. -/
theorem shiftAll_eq (ch : Chain) (bs : List Bool) :
    ch.shiftAll bs = { ch with sr := (bs.reverse ++ ch.sr).take ch.sr.length } := by
  induction bs generalizing ch with
  | nil => simp
  | cons b bs ih =>
    rw [shiftAll_cons, ih, shift_sr_length]
    simp only [Chain.shift, List.reverse_cons, List.append_assoc, List.singleton_append]
    congr 1
    rw [List.take_append, List.take_append, List.take_take]
    congr 2
    omega

/-- The bits of a byte in wire order, most significant first. -/
def byteBits (b : Byte) : List Bool := [7, 6, 5, 4, 3, 2, 1, 0].map fun j => b.getLsbD j

/-- A byte leaves DATA at its bit 0 and CLOCK high, and shifts its eight bits in. -/
theorem runMicroOps_byteCells (s : State) (b : Byte) :
    s.runMicroOps (byteCells b) =
      { s with data := b.getLsbD 0, clock := true, chain := s.chain.shiftAll (byteBits b) } := by
  simp only [byteCells, byteBits, List.flatMap_cons, List.flatMap_nil, List.append_nil,
    runMicroOps_append, runMicroOps_bitCell, List.map_cons, List.map_nil, shiftAll_cons, shiftAll_nil]

/-! ### Indexing -/

/-- Past the data phase the index runs through the latch pulse. -/
theorem microOp_latch (n : Nat) (fb : Memory) (p : Nat) : microOp n fb (40 * n + p) = latchMicroOp p := by
  unfold microOp
  rw [if_neg (by omega), show 40 * n + p - 40 * n = p by omega]

/-- Inside the data phase the index names a place of a bit cell. -/
theorem microOp_data {n upc : Nat} (fb : Memory) (h : upc < 40 * n) :
    microOp n fb upc =
      some (cellMicroOp ((fb.read (n - 1 - upc / 40)).getLsbD (7 - upc % 40 / 5)) (upc % 5)) := by
  unfold microOp
  rw [if_pos h]

/-- The frame-buffer bit a cell carries, by its linear index (spec/20_memory.md R43). -/
theorem cell_bitRead {n upc : Nat} (fb : Memory) (h : upc < 40 * n) :
    (fb.read (n - 1 - upc / 40)).getLsbD (7 - upc % 40 / 5) = bitRead fb (8 * n - 1 - upc / 5) := by
  unfold bitRead
  rw [show (8 * n - 1 - upc / 5) / 8 = n - 1 - upc / 40 by omega,
    show (8 * n - 1 - upc / 5) % 8 = 7 - upc % 40 / 5 by omega]

/-- A micro-operation exists exactly below `L`. -/
theorem microOp_isSome_iff (n : Nat) (fb : Memory) (upc : Nat) :
    (microOp n fb upc).isSome ↔ upc < microOpCount n := by
  unfold microOpCount
  rcases Nat.lt_or_ge upc (40 * n) with h | h
  · rw [microOp_data fb h]; simp; omega
  · obtain ⟨p, rfl⟩ := Nat.exists_eq_add_of_le h
    rw [microOp_latch]
    unfold latchMicroOp
    split <;> simp_all
    omega

/-- The data phase writes only CLOCK and DATA, and each at its own place of the cell. -/
theorem microOp_data_write {n upc : Nat} {fb : Memory} {l : Line} {v : Bool} (h : upc < 40 * n)
    (e : microOp n fb upc = some (.write l v)) :
    (upc % 5 = 0 ∧ l = .clock ∧ v = false) ∨
    (upc % 5 = 1 ∧ l = .data ∧ v = bitRead fb (8 * n - 1 - upc / 5)) ∨
    (upc % 5 = 3 ∧ l = .clock ∧ v = true) := by
  rw [microOp_data fb h, cell_bitRead fb h, Option.some.injEq] at e
  have h5 : upc % 5 < 5 := Nat.mod_lt _ (by omega)
  unfold cellMicroOp at e
  split at e <;> simp_all

/-- The latch pulse writes only LATCH: low, high, low. -/
theorem latchMicroOp_write {p : Nat} {l : Line} {v : Bool} (e : latchMicroOp p = some (.write l v)) :
    l = .latch ∧ ((p = 0 ∧ v = false) ∨ (p = 2 ∧ v = true) ∨ (p = 4 ∧ v = false)) := by
  unfold latchMicroOp at e
  split at e <;> simp_all

end Sys2Proof.Machine
end

