-- ==== Sys2Proof/Laws/Step.lean ====
section
/-! SUPPORT. Everything a command and a step can do, each said once as a case list, so that no later proof
unfolds `exec` or `step`. -/

namespace Sys2Proof.Machine

/-! ### The commands -/

/-- Everything `exec` can do. -/
theorem exec_cases {i : Instr} {s t : State} (h : exec i s = .next t) :
    (i = .nop ∧ t = s) ∨
    (∃ c r v, i = .set c r v ∧
      ((translate s.cfg c r = none ∧ t = s) ∨
        ∃ k j, translate s.cfg c r = some (k, j) ∧ t = { s with fb := s.fb.writeBit k j v })) ∨
    (i = .clearAll ∧ t = { s with fb := Memory.cleared }) ∨
    (i = .transmit ∧ t = { s with seq := .run 0 0 }) := by
  cases i with
  | nop => exact .inl ⟨rfl, (Host.Outcome.next.inj h).symm⟩
  | set c r v =>
    refine .inr (.inl ⟨c, r, v, rfl, ?_⟩)
    change execSet c r v s = .next t at h
    unfold execSet at h
    split at h
    · rename_i e; exact .inl ⟨e, (Host.Outcome.next.inj h).symm⟩
    · rename_i k j e; exact .inr ⟨k, j, e, (Host.Outcome.next.inj h).symm⟩
  | clearAll => exact .inr (.inr (.inl ⟨rfl, (Host.Outcome.next.inj h).symm⟩))
  | transmit => exact .inr (.inr (.inr ⟨rfl, (Host.Outcome.next.inj h).symm⟩))

/-- What no command changes: the lines, the chain, the parameters and the host's schedule. -/
theorem exec_frame {i : Instr} {s t : State} (h : exec i s = .next t) :
    t.data = s.data ∧ t.clock = s.clock ∧ t.latch = s.latch ∧ t.chain = s.chain ∧ t.cfg = s.cfg ∧
      t.host = s.host := by
  rcases exec_cases h with ⟨-, rfl⟩ | ⟨c, r, v, -, ⟨-, rfl⟩ | ⟨k, j, -, rfl⟩⟩ | ⟨-, rfl⟩ | ⟨-, rfl⟩ <;>
    exact ⟨rfl, rfl, rfl, rfl, rfl, rfl⟩

/-- A SET whose coordinate is dropped. -/
theorem execSet_dropped {s : State} {c r : Int} (v : Bool) (h : translate s.cfg c r = none) :
    exec (.set c r v) s = .next s := by
  simp [exec, execSet, h]

/-- A SET whose coordinate is chip `k`, bit `j`. -/
theorem execSet_written {s : State} {c r : Int} (v : Bool) {k j : Nat}
    (h : translate s.cfg c r = some (k, j)) :
    exec (.set c r v) s = .next { s with fb := s.fb.writeBit k j v } := by
  simp [exec, execSet, h]

/-! ### The sequencer -/

/-- Everything the sequencer's edge can do when it answers a next state. -/
theorem sequencerEdge_cases {upc tick : Nat} {s t : State} (h : sequencerEdge upc tick s = .next t) :
    (∃ line v, microOp s.cfg.nChips s.fb upc = some (.write line v) ∧
      t = { s.writeLine line v with seq := seqAfter s.cfg.nChips upc }) ∨
    (microOp s.cfg.nChips s.fb upc = some .hold ∧
      t = { s with seq := if tick = s.cfg.tUnit - 1 then .run (upc + 1) 0 else .run upc (tick + 1) }) := by
  unfold sequencerEdge at h
  split at h
  · cases h
  · rename_i line v e; exact .inl ⟨line, v, e, (Host.Outcome.next.inj h).symm⟩
  · rename_i e; exact .inr ⟨e, (Host.Outcome.next.inj h).symm⟩

/-! ### The step -/

/-- Everything a step can do when it answers a next state (spec/41_serial_transmit.md R110). -/
theorem step_cases {s t : State} (h : step s = .next t) :
    (s.portNow.rst = true ∧ t = s.passEdge.blockReset) ∨
    (s.portNow.rst = false ∧ ∃ upc tick line v, s.seq = .run upc tick ∧
      microOp s.cfg.nChips s.fb upc = some (.write line v) ∧
      t = { s.passEdge.writeLine line v with seq := seqAfter s.cfg.nChips upc }) ∨
    (s.portNow.rst = false ∧ ∃ upc tick, s.seq = .run upc tick ∧
      microOp s.cfg.nChips s.fb upc = some .hold ∧
      t = { s.passEdge with
        seq := if tick = s.cfg.tUnit - 1 then .run (upc + 1) 0 else .run upc (tick + 1) }) ∨
    (s.portNow.rst = false ∧ s.seq = .idle ∧ s.portNow.cmdValid = false ∧ t = s.passEdge) ∨
    (s.portNow.rst = false ∧ s.seq = .idle ∧ s.portNow.cmdValid = true ∧
      ∃ i, decode s.portNow.cmdWord = .instr i ∧ exec i s.passEdge = .next t) ∨
    (s.portNow.rst = false ∧ s.seq = .idle ∧ s.portNow.cmdValid = true ∧
      ∃ op, decode s.portNow.cmdWord = .reserved op ∧ t = s.passEdge) := by
  unfold step at h
  split at h
  · rename_i hr; exact .inl ⟨hr, (Host.Outcome.next.inj h).symm⟩
  · rename_i hr
    rw [Bool.not_eq_true] at hr
    split at h
    · rename_i upc tick hs
      rcases sequencerEdge_cases h with ⟨line, v, e, rfl⟩ | ⟨e, rfl⟩
      · exact .inr (.inl ⟨hr, upc, tick, line, v, hs, by simpa using e, by simp⟩)
      · exact .inr (.inr (.inl ⟨hr, upc, tick, hs, by simpa using e, by simp⟩))
    · rename_i hs
      split at h
      · rename_i hv
        split at h
        · rename_i i e; exact .inr (.inr (.inr (.inr (.inl ⟨hr, hs, hv, i, e, h⟩))))
        · rename_i op e
          exact .inr (.inr (.inr (.inr (.inr ⟨hr, hs, hv, op, e, (Host.Outcome.next.inj h).symm⟩))))
      · rename_i hv
        rw [Bool.not_eq_true] at hv
        exact .inr (.inr (.inr (.inl ⟨hr, hs, hv, (Host.Outcome.next.inj h).symm⟩)))

/-- The step of a state at which `rst = 1`. -/
theorem step_reset {s : State} (h : s.portNow.rst = true) : step s = .next s.passEdge.blockReset := by
  simp [step, h]

/-- The step of a running transfer. -/
theorem step_run {s : State} {upc tick : Nat} (h : s.portNow.rst = false) (hs : s.seq = .run upc tick) :
    step s = sequencerEdge upc tick s.passEdge := by
  simp [step, h, hs]

/-- The step of an idle block with no command. -/
theorem step_quiet {s : State} (h : s.portNow.rst = false) (hs : s.seq = .idle)
    (hv : s.portNow.cmdValid = false) : step s = .next s.passEdge := by
  simp [step, h, hs, hv]

/-- The step that accepts a command. -/
theorem step_accept {s : State} {i : Instr} (h : s.portNow.rst = false) (hs : s.seq = .idle)
    (hv : s.portNow.cmdValid = true) (hd : decode s.portNow.cmdWord = .instr i) :
    step s = exec i s.passEdge := by
  simp [step, h, hs, hv, hd]

/-- The step that accepts a word with a reserved operation code. -/
theorem step_reserved {s : State} {op : BitVec 8} (h : s.portNow.rst = false) (hs : s.seq = .idle)
    (hv : s.portNow.cmdValid = true) (hd : decode s.portNow.cmdWord = .reserved op) :
    step s = .next s.passEdge := by
  simp [step, h, hs, hv, hd, execReserved]

/-- Where the host's schedule goes at an edge that accepts, resets or drives nothing to hold. -/
theorem passEdge_host_tail {s : State} (h : s.portNow.cmdValid = false ∨ s.portNow.rst = true ∨ s.seq = .idle) :
    s.passEdge.host = s.host.tail := by
  cases hh : s.host with
  | nil => simp [hh]
  | cons a rest =>
    cases a with
    | drive p => simp [passEdge_host_drive s hh]
    | present w =>
      rw [passEdge_host_present s hh]
      simp only [State.portNow, hh, HostAct.port] at h
      rcases h with h | h | h
      · cases h
      · cases h
      · simp [State.cmdReady, h]

/-! ### Seen without the host's schedule -/

@[simp] theorem withoutHost_fb (s : State) : s.withoutHost.fb = s.fb := rfl
@[simp] theorem withoutHost_data (s : State) : s.withoutHost.data = s.data := rfl
@[simp] theorem withoutHost_clock (s : State) : s.withoutHost.clock = s.clock := rfl
@[simp] theorem withoutHost_latch (s : State) : s.withoutHost.latch = s.latch := rfl
@[simp] theorem withoutHost_seq (s : State) : s.withoutHost.seq = s.seq := rfl
@[simp] theorem withoutHost_chain (s : State) : s.withoutHost.chain = s.chain := rfl
@[simp] theorem withoutHost_cfg (s : State) : s.withoutHost.cfg = s.cfg := rfl
@[simp] theorem withoutHost_passEdge (s : State) : s.passEdge.withoutHost = s.withoutHost := by
  rw [passEdge_eq]; rfl

/-! ### Runs -/

theorem historyAfter_reset {h : Option Bool} {s : State} (hr : s.portNow.rst = true) :
    historyAfter h s = none := by
  simp [historyAfter, hr]

theorem historyAfter_lastMicroOp {h : Option Bool} {s : State} {tick : Nat} (hr : s.portNow.rst = false)
    (hs : s.seq = .run (microOpCount s.cfg.nChips - 1) tick) :
    historyAfter h s = some (bitRead s.fb 0) := by
  simp [historyAfter, hr, hs]

theorem historyAfter_otherEdge {h : Option Bool} {s : State} (hr : s.portNow.rst = false)
    (hs : ∀ tick, s.seq ≠ .run (microOpCount s.cfg.nChips - 1) tick) : historyAfter h s = h := by
  cases hq : s.seq with
  | idle => simp [historyAfter, hr, hq]
  | run upc tick =>
    have : upc ≠ microOpCount s.cfg.nChips - 1 := fun e => hs tick (by rw [hq, e])
    simp [historyAfter, hr, hq, this]

/-- A step continues a history as `historyAfter` says. -/
theorem History.next {d : Option Bool} {s t : State} (hd : History d s)
    (hst : Sys2Proof.Machine.step s = .next t) : History (historyAfter d s) t := by
  cases hr : s.portNow.rst with
  | true => rw [historyAfter_reset hr]; exact .resetEdge d s t hd hr hst
  | false =>
    by_cases hl : ∃ tick, s.seq = .run (microOpCount s.cfg.nChips - 1) tick
    · obtain ⟨tick, hl⟩ := hl
      rw [historyAfter_lastMicroOp hr hl]; exact .lastMicroOp d s t tick hd hr hl hst
    · have hl' := fun tick e => hl ⟨tick, e⟩
      rw [historyAfter_otherEdge hr hl']; exact .otherEdge d s t hd hr hl' hst

/-- A reachable state has a history. -/
theorem Reachable.history {s : State} (h : Reachable s) : ∃ d, History d s := by
  induction h with
  | reset s hs => exact ⟨none, .reset s hs⟩
  | step s t _ hst ih => exact ih.imp' (historyAfter · s) fun _ hd => hd.next hst

/-- A state with a history is reachable. -/
theorem History.reachable {d : Option Bool} {s : State} (h : History d s) : Reachable s := by
  induction h with
  | reset s hs => exact .reset s hs
  | resetEdge _ s t _ _ hst ih => exact .step s t ih hst
  | lastMicroOp _ s t _ _ _ _ hst ih => exact .step s t ih hst
  | otherEdge _ s t _ _ _ hst ih => exact .step s t ih hst

/-- What holds after every reset and is kept by every step holds of every reachable state. -/
theorem Reachable.of_invariant {P : State → Prop} (h0 : ∀ s : State, s.AfterReset → P s)
    (h1 : ∀ s t : State, P s → Sys2Proof.Machine.step s = .next t → P t) {s : State} (h : Reachable s) :
    P s := by
  induction h with
  | reset s hs => exact h0 s hs
  | step s t _ hst ih => exact h1 s t ih hst

@[simp] theorem runEdges_zero (s : State) : runEdges 0 s = .next s := rfl

/-- A run, one step at a time. -/
theorem runEdges_succ (k : Nat) (s : State) :
    runEdges (k + 1) s =
      match Sys2Proof.Machine.step s with
      | .next t => runEdges k t
      | .fault r => .fault r
      | .refused r => .refused r := by
  cases hs : Sys2Proof.Machine.step s <;> simp [runEdges, Host.Core.run, core, hs]

/-- A run of one edge is a step. -/
theorem runEdges_one (s : State) : runEdges 1 s = Sys2Proof.Machine.step s := by
  rw [show (1 : Nat) = 0 + 1 from rfl, runEdges_succ]
  cases Sys2Proof.Machine.step s <;> rfl

/-- A run of a sum of edges is the runs one after the other. -/
theorem runEdges_add {m k : Nat} {s t : State} (h : runEdges m s = .next t) :
    runEdges (m + k) s = runEdges k t := by
  induction m generalizing s with
  | zero => cases h; rw [Nat.zero_add]
  | succ m ih =>
    rw [runEdges_succ] at h
    rw [show m + 1 + k = (m + k) + 1 by omega, runEdges_succ]
    cases hs : Sys2Proof.Machine.step s with
    | next u => rw [hs] at h; exact ih h
    | fault r => rw [hs] at h; cases h
    | refused r => rw [hs] at h; cases h

/-- While the host asserts no reset, the next edge has `rst = 0` and the schedule past it asserts none
either. -/
theorem noReset_passEdge {s : State} (h : noReset s.host) :
    s.portNow.rst = false ∧ noReset s.passEdge.host := by
  cases hh : s.host with
  | nil => simp [State.portNow, hh, PortIn.low, noReset]
  | cons a rest =>
    rw [hh] at h
    have hrest : noReset rest := fun b hb => h b (by simp [hb])
    refine ⟨by simpa [State.portNow, hh] using h a (by simp), ?_⟩
    cases a with
    | drive p => rw [passEdge_host_drive s hh]; exact hrest
    | present w => rw [passEdge_host_present s hh]; split; exacts [hrest, h]

end Sys2Proof.Machine
end

