-- ==== Sys2Proof/Laws/Waveform.lean ====
section
/-! SUPPORT. The observers of the lines over a list taken apart, and what they see in one bit cell, one byte
and the latch pulse. -/

namespace Sys2Proof.Machine

theorem capturedData_append (s : State) (a b : List MicroOp) :
    s.capturedData (a ++ b) = s.capturedData a ++ (s.runMicroOps a).capturedData b := by
  induction a generalizing s with
  | nil => rfl
  | cons op a ih => simp only [List.cons_append, State.capturedData, ih, runMicroOps_cons]; split <;> simp

theorem risingEdges_append (l : Line) (s : State) (a b : List MicroOp) :
    s.risingEdges l (a ++ b) = s.risingEdges l a + (s.runMicroOps a).risingEdges l b := by
  induction a generalizing s with
  | nil => simp [State.risingEdges]
  | cons op a ih => simp only [List.cons_append, State.risingEdges, ih, runMicroOps_cons]; omega

theorem fallingEdges_append (l : Line) (s : State) (a b : List MicroOp) :
    s.fallingEdges l (a ++ b) = s.fallingEdges l a + (s.runMicroOps a).fallingEdges l b := by
  induction a generalizing s with
  | nil => simp [State.fallingEdges]
  | cons op a ih => simp only [List.cons_append, State.fallingEdges, ih, runMicroOps_cons]; omega

/-- A bit cell captures its bit, from either level of CLOCK. -/
theorem capturedData_bitCell (s : State) (b : Bool) : s.capturedData (bitCell b) = [b] := by
  cases h : s.clock <;> simp [bitCell, State.capturedData, risingEdge, h]

/-- A byte captures its bits, most significant first. -/
theorem capturedData_byteCells (s : State) (b : Byte) : s.capturedData (byteCells b) = byteBits b := by
  simp only [byteCells, byteBits, List.flatMap_cons, List.flatMap_nil, List.append_nil, capturedData_append,
    capturedData_bitCell, List.map_cons, List.map_nil, List.singleton_append]

/-- The latch pulse captures nothing. -/
theorem capturedData_latchPulse (s : State) : s.capturedData latchPulse = [] := by
  simp [latchPulse, State.capturedData, risingEdge]

/-- A bit cell makes one rising edge of CLOCK, from either level. -/
theorem risingEdges_clock_bitCell (s : State) (b : Bool) : s.risingEdges .clock (bitCell b) = 1 := by
  cases h : s.clock <;> simp [bitCell, State.risingEdges, State.lineLevel, risingEdge, h]

theorem risingEdges_latch_bitCell (s : State) (b : Bool) : s.risingEdges .latch (bitCell b) = 0 := by
  cases h : s.latch <;> simp [bitCell, State.risingEdges, State.lineLevel, risingEdge, h]

theorem fallingEdges_latch_bitCell (s : State) (b : Bool) : s.fallingEdges .latch (bitCell b) = 0 := by
  cases h : s.latch <;> simp [bitCell, State.fallingEdges, State.lineLevel, fallingEdge, h]

/-- A place of a bit cell by its number (spec/41_serial_transmit.md R104). -/
theorem bitCell_getElem? (b : Bool) {p : Nat} (h : p < 5) : (bitCell b)[p]? = some (cellMicroOp b p) := by
  interval_cases p <;> rfl

/-- A place of a byte's cells by its number (R104). -/
theorem byteCells_getElem? (b : Byte) {p : Nat} (h : p < 40) :
    (byteCells b)[p]? = some (cellMicroOp (b.getLsbD (7 - p / 5)) (p % 5)) := by
  interval_cases p <;> rfl

/-- The edges of one more micro-operation. -/
theorem edgesFor_succ {cfg : Config} {fb : Memory} {m : Nat} {op : MicroOp}
    (h : (microOps cfg.nChips fb)[m]? = some op) :
    edgesFor cfg fb (m + 1) = edgesFor cfg fb m + op.edges cfg.tUnit := by
  unfold edgesFor
  rw [List.take_add_one, h]
  simp

end Sys2Proof.Machine
end

