-- ==== Sys2Proof/Tests/Slice0.lean ====
section
/-! SUPPORT. The model's own tests: the well-formedness smoke, decoding of words written from the spec's
encoding, single steps on small states, and for every statement with hypotheses a concrete state and
operands that meet them. Expected values come from spec/95_test_vectors.md where it has them. -/

namespace Sys2Proof.Tests

open Sys2Proof Sys2Proof.Machine

/-! ### Small states -/

/-- This hardware's grid and chain with `T_UNIT = 1`. -/
def cfg : Config := { nCols := 5, nRows := 5, nChips := 4, tUnit := 1 }

/-- A block with LATCH low and CLOCK low, and a chain of `cfg.nChips` chips that shows ones. -/
def block (cfg : Config) (fb : Memory) (seq : Seq) (host : List HostAct) : State :=
  { fb := fb, data := false, clock := false, latch := false, seq := seq
    chain := { sr := List.replicate (8 * cfg.nChips) true, out := List.replicate (8 * cfg.nChips) true }
    cfg := cfg, host := host }

/-- An idle block with pixel (0, 0) lit and a TRANSMIT presented. -/
def ready : State := block cfg [(0, 0x01#8)] .idle [.present 0x03000000#32]

/-- A block with one chip and `T_UNIT = 1` right after reset, as in spec/95_test_vectors.md V30 but with
the buffer still clear. -/
def tiny : State := block { nCols := 2, nRows := 4, nChips := 1, tUnit := 1 } [] .idle [.present 0x03000000#32]

/-! ### Well-formedness smoke: one ill-formed term for each check -/

theorem test_wf_nop : Instr.nop.wellFormed = true := by decide
theorem test_wf_set_limits : (Instr.set (-128) 127 true).wellFormed = true := by decide
theorem test_wf_column_too_low : (Instr.set (-129) 0 true).wellFormed = false := by decide
theorem test_wf_column_too_high : (Instr.set 128 0 true).wellFormed = false := by decide
theorem test_wf_row_too_low : (Instr.set 0 (-129) true).wellFormed = false := by decide
theorem test_wf_row_too_high : (Instr.set 0 256 true).wellFormed = false := by decide

/-! ### Decoding: words written bit by bit from spec/30_encoding.md R60, and reserved words -/

theorem test_decode_nop : decode 0b00000000000000000000000000000000#32 = .instr .nop := by decide
theorem test_decode_set : decode 0b00000001000000011111111100000010#32 = .instr (.set (-1) 2 true) := by decide
theorem test_decode_set_dark : decode 0b00000001000000000000001000000011#32 = .instr (.set 2 3 false) := by decide
theorem test_decode_clearAll : decode 0b00000010000000000000000000000000#32 = .instr .clearAll := by decide
theorem test_decode_transmit : decode 0b00000011000000000000000000000000#32 = .instr .transmit := by decide
theorem test_decode_reserved : decode 0x04000000#32 = .reserved 0x04#8 := by decide
theorem test_decode_ignored : decode 0x01FE0404#32 = .instr (.set 4 4 false) := by decide
theorem test_table_reserved : decodeTableWord 32 0xFF010404 = none := by decide
theorem test_table_set : decodeTableWord 32 0x01010404 = some (.set 4 4 true) := by decide

/-- The worked words of spec/95_test_vectors.md P1, by the encoder, from the expansion of FRAME (R68). -/
theorem test_assemble_frame :
    assemble (Pseudo.frame [(0, 0), (4, 4)]).expand =
      [0x02000000#32, 0x01010000#32, 0x01010404#32, 0x03000000#32] := by decide

/-- Text of R67, a negative coordinate with its sign. -/
theorem test_assembly_text : (Instr.set (-1) 2 true).assembly = "SET -1, 2, 1" := by decide

/-! ### One edge of each command -/

/-- V29c. -/
theorem test_nop :
    stateAfter (exec .nop (block cfg [(0, 0x12#8)] .idle [])) = some (block cfg [(0, 0x12#8)] .idle []) := by
  decide

/-- V27a, V27b: the top bit of chip 0 and the first of chip 1. -/
theorem test_set_top_bit :
    stateAfter (exec (.set 1 2 true) (block cfg [] .idle [])) = some (block cfg [(0, 0x80#8)] .idle []) := by
  decide

/-- V28j: a pixel beyond an under-provisioned chain is dropped. -/
theorem test_set_dropped :
    stateAfter (exec (.set 4 4 true) (block { cfg with nChips := 3 } [] .idle [])) =
      some (block { cfg with nChips := 3 } [] .idle []) := by
  decide

/-- V29a. -/
theorem test_clearAll :
    stateAfter (exec .clearAll (block cfg [(0, 0xFF#8), (3, 0x01#8)] .idle [])) =
      some (block cfg [] .idle []) := by
  decide

/-- P5, edge 3: the accepting edge of TRANSMIT starts the sequencer and uses up the presented word. -/
theorem test_transmit_accepted :
    stateAfter (step ready) = some (block cfg [(0, 0x01#8)] (.run 0 0) []) := by
  decide

/-- Spec/95_test_vectors.md 2.7: micro-operations 1, 36, 156, 162 and 164 of `FB = [1, 0, 0, 1]`. -/
theorem test_microOps :
    [1, 36, 156, 162, 164, 165].map (microOp 4 [(0, 0x01#8), (3, 0x01#8)]) =
      [some (.write .data false), some (.write .data true), some (.write .data true),
        some (.write .latch true), some (.write .latch false), none] := by
  decide

/-- V26: a reserved word is accepted and changes nothing. -/
theorem test_reserved :
    stateAfter (step (block cfg [] .idle [.present 0xFF010404#32])) = some (block cfg [] .idle []) := by
  decide

/-- The reset state runs a presented word at its first step (log entry 6). -/
theorem test_fetch_after_reset :
    step (State.reset.withFetchWord 32 0x01010404) = exec (.set 4 4 true) State.reset := rfl

/-! ### Witnesses: states and operands that meet the statements' hypotheses -/

theorem witness_EveryWordDecodesByItsFields :
    (0x00ABCDEF#32 = 0x00#8 ++ 0x55#7 ++ BitVec.ofBool true ++ 0xCD#8 ++ 0xEF#8) ∧
    (0x01017F80#32 = 0x01#8 ++ 0#7 ++ BitVec.ofBool true ++ 0x7F#8 ++ 0x80#8) ∧
    (0x02000000#32 = 0x02#8 ++ 0#7 ++ BitVec.ofBool false ++ 0#8 ++ 0#8) ∧
    (0x03000000#32 = 0x03#8 ++ 0#7 ++ BitVec.ofBool false ++ 0#8 ++ 0#8) ∧
    (0x04000000#32 = 0x04#8 ++ 0#7 ++ BitVec.ofBool false ++ 0#8 ++ 0#8) := by decide

theorem witness_TranslateIsTheBoundsCheckedIndex :
    cfg.Provisioned ∧ 0 ≤ (4 : Int) ∧ (4 : Int) < cfg.nCols ∧ (4 : Int) < cfg.nRows := by decide

theorem witness_DecodeOfEncode : (Instr.set (-128) 127 true).WellFormed := by decide

theorem witness_EncodeOfDecodeClearsIgnoredBits : decode 0x01FF0404#32 = .instr (.set 4 4 true) := by decide

theorem witness_DecoderFollowsOpcodeTable :
    Instr.clearAll.row ∈ opcodeTable ∧ Instr.clearAll.row.holds 0x02FFFFFF#32 = true := by decide

theorem witness_TruncatedCoordinatesAlias : (1 : Int) ≠ 0 ∧ FitsCoordinate 0 ∧ FitsCoordinate 127 := by decide

theorem witness_IndexerIsABijection :
    cfg.Valid ∧ (0 ≤ (4 : Int) ∧ (4 : Int) < cfg.nCols ∧ (4 : Int) < cfg.nRows) ∧ 24 < cfg.nCols * cfg.nRows ∧
      linearIndex cfg 4 4 = linearIndex cfg 4 4 := by decide

/-- A dropped coordinate, and the top bit of chip 0 and the first bit of chip 3. -/
theorem witness_SetWritesOneBit :
    translate ready.cfg 5 0 = none ∧
    (ready.fb.wf ∧ 0 ≤ (1 : Int) ∧ (1 : Int) < ready.cfg.nCols ∧ 0 ≤ (2 : Int) ∧ (2 : Int) < ready.cfg.nRows ∧
      0 < ready.cfg.nChips ∧ 7 < 8 ∧ (1 : Int) * ready.cfg.nRows + 2 = 8 * ((0 : Nat) : Int) + (7 : Nat)) ∧
    ((4 : Int) < ready.cfg.nCols ∧ 3 < ready.cfg.nChips ∧
      (4 : Int) * ready.cfg.nRows + 4 = 8 * ((3 : Nat) : Int) + (0 : Nat)) := by decide

theorem witness_SetOutOfRangeChangesNothing :
    ((-1 : Int) < 0) ∧ ((ready.cfg.nCols : Int) ≤ 5) ∧ ((ready.cfg.nRows : Int) ≤ 5) := by decide

theorem witness_SetBeyondTheChainChangesNothing :
    let s := block { cfg with nChips := 3 } [] .idle []
    0 ≤ (4 : Int) ∧ (4 : Int) < s.cfg.nCols ∧ (4 : Int) < s.cfg.nRows ∧
      (s.cfg.nChips : Int) ≤ (4 * s.cfg.nRows + 4) / 8 := by decide

theorem witness_SetLaws :
    ready.fb.wf ∧ translate ready.cfg 0 0 = some (0, 0) ∧ translate ready.cfg 4 4 = some (3, 0) ∧
      ((0, 0) : Int × Int) ≠ (4, 4) ∧ bitRead ready.fb (linearIndex ready.cfg 0 0) = true := by decide

theorem witness_ClearAllClearsEveryByte :
    (block cfg [] .idle []).fb.wf ∧ ∀ k, (block cfg [] .idle []).fb.read k = 0x00#8 :=
  ⟨by decide, fun _ => rfl⟩

theorem witness_TransmitStartsTheSequencer : (0x03ABCDEF#32 : Word).toNat / 2 ^ 24 = 3 := by decide

theorem witness_ClearAllWords : (0x02FFFFFF#32 : Word).toNat / 2 ^ 24 = 2 := by decide

theorem witness_NopChangesNothing :
    let s := block cfg [] .idle [.present 0xFF010404#32]
    (0x00ABCDEF#32 : Word).toNat / 2 ^ 24 = 0 ∧ s.seq = .idle ∧
      s.portNow = { rst := false, cmdValid := true, cmdWord := 0xFF010404#32 } ∧
      decode 0xFF010404#32 = .reserved 0xFF#8 := by decide

theorem witness_ClearAllIsTheByteLoop : ready.fb.wf ∧ ready.fb.within ready.cfg.nChips := by decide

theorem witness_ReservedWordExecutesAsNop :
    let s := block cfg [] .idle [.present 0x04000000#32]
    s.seq = .idle ∧ s.portNow = { rst := false, cmdValid := true, cmdWord := 0x04000000#32 } ∧
      4 ≤ (0x04000000#32 : Word).toNat / 2 ^ 24 := by decide

theorem witness_FrameCommandsLeaveLinesAndSequencer :
    (block cfg [] (.run 0 0) []).seq ≠ .idle ∧
    let s := block cfg [] .idle [.drive { rst := false, cmdValid := true, cmdWord := 0x01010404#32 }]
    s.seq = .idle ∧ s.portNow = { rst := false, cmdValid := true, cmdWord := 0x01010404#32 } ∧
      decode 0x01010404#32 = .instr (.set 4 4 true) ∧ Instr.set 4 4 true ≠ .transmit := by decide

theorem witness_StepRunsTheDecodedCommand :
    ready.seq = .idle ∧ ready.portNow = { rst := false, cmdValid := true, cmdWord := 0x03000000#32 } ∧
      decode 0x03000000#32 = .instr .transmit := by decide

theorem witness_FetchedWordRunsNext : decodeTableWord 32 0x02000000 = some .clearAll := by decide

/-- An edge with `rst = 1` during a transfer, with a command presented at it. -/
theorem witness_ResetWinsOverEverything :
    (block cfg [(0, 0x01#8)] (.run 7 0)
      [.drive { rst := true, cmdValid := true, cmdWord := 0x03000000#32 }]).portNow.rst = true := by decide

theorem witness_RunningTransferIgnoresTheCommandPort :
    (block cfg [] (.run 3 0) []).seq = .run 3 0 ∧
      (stateAfter (step (block cfg [] (.run 3 0) [.present 0x02000000#32]))).isSome = true := by decide

theorem witness_IdleBlockHoldsItsState :
    let s := block cfg [] .idle []
    s.seq = .idle ∧ s.portNow.rst = false ∧ s.portNow.cmdValid = false := by decide

/-- The first and the last write of a transfer. -/
theorem witness_WriteMicroOperationTakesOneEdge :
    let s := block cfg [] (.run 0 0) []
    let s' := block cfg [] (.run 164 0) []
    (s.seq = .run 0 0 ∧ s.portNow.rst = false ∧
      microOp s.cfg.nChips s.fb 0 = some (.write .clock false)) ∧
    (s'.seq = .run 164 0 ∧ s'.portNow.rst = false ∧
      microOp s'.cfg.nChips s'.fb 164 = some (.write .latch false)) := by decide

/-- A hold at its first and at its last edge, with `T_UNIT = 2`. -/
theorem witness_HoldMicroOperationCountsTimingUnit :
    let s := block { cfg with tUnit := 2 } [] (.run 2 0) []
    let s' := block { cfg with tUnit := 2 } [] (.run 163 1) []
    (s.seq = .run 2 0 ∧ s.portNow.rst = false ∧ microOp s.cfg.nChips s.fb 2 = some .hold ∧
      (0 : Nat) ≠ s.cfg.tUnit - 1) ∧
    (s'.seq = .run 163 1 ∧ s'.portNow.rst = false ∧ microOp s'.cfg.nChips s'.fb 163 = some .hold ∧
      (1 : Nat) = s'.cfg.tUnit - 1) ∧
    microOp cfg.nChips [] (1 + 1) = some .hold ∧ microOp cfg.nChips [] (162 + 1) = some .hold := by decide

theorem witness_StepIsTotal :
    let s := block cfg [] (.run 164 0) []
    ∀ upc tick, s.seq = .run upc tick → upc < 40 * s.cfg.nChips + 5 := by
  intro s upc tick h
  cases h
  decide

theorem witness_IndexOutOfRangeFaults :
    let s := block cfg [] (.run 165 0) []
    s.seq = .run 165 0 ∧ s.portNow.rst = false ∧ 40 * s.cfg.nChips + 5 ≤ 165 := by decide

theorem witness_OnlySetClearAllAndResetWriteTheBuffer :
    let s := block cfg [] .idle [.present 0x01010404#32]
    ∃ t, step s = .next t ∧ t.fb ≠ s.fb :=
  ⟨_, rfl, by decide⟩

theorem witness_OnlyMicroOperationsAndResetWriteTheLines :
    let s := block cfg [] (.run 3 0) []
    ∃ t, step s = .next t ∧ t.lineLevel .clock ≠ s.lineLevel .clock :=
  ⟨_, rfl, by decide⟩

theorem witness_NoStepChangesTheConfiguration : (stateAfter (step ready)).isSome = true := by decide

/-- A step with a rising edge of CLOCK, and one without. -/
theorem witness_ChainShiftsExactlyOnRisingClock :
    (let s := block cfg [] (.run 3 0) []
     ∃ t, step s = .next t ∧ s.clock = false ∧ t.clock = true ∧ 0 < s.chain.sr.length ∧
      30 + 1 < s.chain.sr.length) ∧
    (let s := block cfg [] (.run 0 0) []
     ∃ t, step s = .next t ∧ ¬ (s.clock = false ∧ t.clock = true)) :=
  ⟨⟨_, rfl, by decide⟩, ⟨_, rfl, by decide⟩⟩

/-- A step with a rising edge of LATCH, and one without. -/
theorem witness_ChainOutputsChangeExactlyOnRisingLatch :
    (let s := block cfg [] (.run 162 0) []
     ∃ t, step s = .next t ∧ s.latch = false ∧ t.latch = true) ∧
    (let s := block cfg [] (.run 160 0) []
     ∃ t, step s = .next t ∧ ¬ (s.latch = false ∧ t.latch = true)) :=
  ⟨⟨_, rfl, by decide⟩, ⟨_, rfl, by decide⟩⟩

theorem witness_ReadBackPortShowsTheBuffer : 31 < 8 * ready.cfg.nChips ∧ 3 < ready.cfg.nChips := by decide

theorem witness_MicroOperationIndexing : 31 < 8 * 4 := by decide

/-- LATCH low, and a position of the transfer at which DATA changes. -/
theorem witness_TransferCounts :
    let ops := microOps tiny.cfg.nChips tiny.fb
    tiny.latch = false ∧
      (({ tiny with data := true }).runMicroOps (ops.take (1 + 1))).data ≠
        (({ tiny with data := true }).runMicroOps (ops.take 1)).data := by decide

theorem witness_LineLevelsAtTheEndOfATransfer : 1 ≤ ready.cfg.nChips := by decide

/-- A chain one chip longer than the buffer, and one one chip shorter. -/
theorem witness_TransferOnAChainOfAnyLength :
    (let s := { ready with chain := { sr := List.replicate 40 true, out := List.replicate 40 true } }
     s.latch = false ∧ (39 < s.chain.sr.length ∧ 8 * s.cfg.nChips ≤ 39) ∧
      (31 < s.chain.sr.length ∧ 31 < 8 * s.cfg.nChips)) ∧
    (let s := { ready with chain := { sr := List.replicate 24 true, out := List.replicate 24 true } }
     s.latch = false ∧ 23 < s.chain.sr.length ∧ 23 < 8 * s.cfg.nChips) := by decide

theorem witness_TransmitTwiceIsTransmitOnce :
    1 ≤ ready.cfg.nChips ∧ ready.latch = false ∧ ready.chain.sr.length ≤ 8 * ready.cfg.nChips := by decide

/-- A driven TRANSMIT, and a host that goes on after it. -/
theorem witness_CycleLevelRefinesEventLevel :
    let rest : List HostAct :=
      [.drive { rst := false, cmdValid := true, cmdWord := 0x02000000#32 }, .present 0x01010404#32]
    let p : PortIn := { rst := false, cmdValid := true, cmdWord := 0x03000000#32 }
    let s := block cfg [(0, 0x01#8)] .idle (.drive p :: rest)
    s.cfg.Valid ∧ s.seq = .idle ∧ s.portNow = p ∧ decode 0x03000000#32 = .instr .transmit ∧
      (∀ a ∈ s.host.tail, a.port.rst = false) ∧ 165 ≤ 40 * s.cfg.nChips + 5 := by decide

theorem witness_TransferTakesExactlyEEdges :
    ready.cfg.Valid ∧ ready.seq = .idle ∧
      ready.portNow = { rst := false, cmdValid := true, cmdWord := 0x03000000#32 } ∧
      decode 0x03000000#32 = .instr .transmit ∧ noReset ready.host.tail ∧
      164 < (24 * ready.cfg.nChips + 3) + (16 * ready.cfg.nChips + 2) * ready.cfg.tUnit :=
  ⟨by decide, rfl, rfl, by decide, fun _ h => absurd h List.not_mem_nil, by decide⟩

/-- With the hypotheses of `witness_TransferTakesExactlyEEdges`, which `ready` meets too. -/
theorem witness_TransmitShowsTheFrameOnTheChain :
    ready.latch = false ∧ ready.chain.wf ∧ ready.chain.sr.length = 8 * ready.cfg.nChips ∧
      (stateAfter (runEdges (1 + 1) ready)).isSome = true ∧ 1 ≤ transferEdges ready.cfg := by decide

theorem witness_WaveformDistances : cfg.Valid ∧ 31 < 8 * cfg.nChips ∧ 30 + 1 < 8 * cfg.nChips := by decide

/-- Bits 25 to 31 of a buffer whose listed bytes are those of `fb`, from a check of the bits below 32. -/
theorem unusedZero_of_check {fb : Memory} (h : fb.within 4)
    (hb : ∀ i, i < 32 → 25 ≤ i → bitRead fb i = false) : ∀ i, 5 * 5 ≤ i → bitRead fb i = false := by
  intro i hi
  by_cases h32 : i < 32
  · exact hb i h32 hi
  · exact bitRead_of_within h (by omega)

/-- The idle block `ready` meets the invariant. -/
theorem ready_inv : ready.Inv where
  cfgValid := by decide
  fbCanonical := by decide
  fbWithin := by decide
  unusedZero := unusedZero_of_check (by decide) (by decide)
  seqInRange := trivial
  latchLevel := rfl
  clockLevel := by intro v h; cases h
  dataLevel := by intro i h; cases h
  chainWf := by decide

/-- A block about to write DATA low in the first bit cell of a transfer, DATA still high from before. -/
def dataWrite : State := { block cfg [(0, 0x01#8)] (.run 1 0) [] with data := true }

/-- A state in the middle of a transfer meets the invariant. -/
theorem dataWrite_inv : dataWrite.Inv where
  cfgValid := by decide
  fbCanonical := by decide
  fbWithin := by decide
  unusedZero := unusedZero_of_check (by decide) (by decide)
  seqInRange := ⟨by decide, by decide, fun _ => rfl⟩
  latchLevel := rfl
  clockLevel := by intro v h; cases h; rfl
  dataLevel := by intro i h; cases h
  chainWf := by decide

theorem witness_UnusedOutputsAreDrivenLow :
    ready.Inv ∧ ready.seq = .idle ∧ ready.cfg.nCols * ready.cfg.nRows ≤ 31 ∧ 31 < 8 * ready.cfg.nChips ∧
      31 < ready.chain.sr.length :=
  ⟨ready_inv, by decide⟩

theorem witness_StepKeepsTheInvariant : dataWrite.Inv ∧ ∃ t, step dataWrite = .next t :=
  ⟨dataWrite_inv, ⟨_, rfl⟩⟩

theorem witness_DataIsStableWhileClockIsHigh :
    dataWrite.Inv ∧ dataWrite.portNow.rst = false ∧ ∃ t, step dataWrite = .next t ∧ t.data ≠ dataWrite.data :=
  ⟨dataWrite_inv, by decide, ⟨_, rfl, by decide⟩⟩

/-- A state after reset, with a chain that holds ones and a TRANSMIT to come. -/
theorem tiny_afterReset : tiny.AfterReset := ⟨rfl, by decide, by decide⟩

theorem witness_ResetMeetsTheInvariant : tiny.AfterReset := tiny_afterReset

theorem witness_LinesAreLowBeforeTheFirstTransfer : History none tiny ∧ tiny.seq = .idle :=
  ⟨.reset tiny tiny_afterReset, rfl⟩

theorem witness_ReachableStatesNeverStop : Reachable tiny := .reset tiny tiny_afterReset

/-- A run of a state with a history ends in one with a history. -/
theorem history_of_run {k : Nat} {d : Option Bool} {s t : State} (h : History d s)
    (hr : runEdges k s = .next t) : ∃ d', History d' t := by
  induction k generalizing d s with
  | zero => cases hr; exact ⟨d, h⟩
  | succ k ih =>
    rw [runEdges_succ] at hr
    cases hs : step s with
    | next u =>
      rw [hs] at hr
      obtain ⟨d', h'⟩ := (Reachable.step s u h.reachable hs).history
      exact ih h' hr
    | fault r => rw [hs] at hr; cases hr
    | refused r => rw [hs] at hr; cases hr

/-- The last micro-operation of the one-chip transfer from `tiny`. -/
def tinyLast : State :=
  { tiny with
    clock := true, seq := .run 44 0, host := []
    chain := { sr := List.replicate 8 false, out := List.replicate 8 false }
    latch := true }

/-- The 45 edges from `tiny` to its last micro-operation. -/
theorem tiny_run : runEdges 45 tiny = .next tinyLast := by rfl

/-- All five items of R34 have a state to speak of: a reachable state in a transfer with LATCH high, and a
reachable idle state after a completed transfer. -/
theorem witness_ReachableStatesMeetTheRules :
    (∃ d, History d tinyLast) ∧ tinyLast.seq = .run (40 * tinyLast.cfg.nChips + 4) 0 ∧
      tinyLast.portNow.rst = false ∧
      ∃ s, History (some false) s ∧ s.seq = .idle := by
  obtain ⟨d, h⟩ := history_of_run (.reset tiny tiny_afterReset) tiny_run
  exact ⟨⟨d, h⟩, rfl, rfl, _, .lastMicroOp d tinyLast _ 0 h rfl rfl rfl, rfl⟩

/-- The last edge of a transfer from a state of the invariant: the case that records a history. -/
theorem witness_StepKeepsTheHistoryInvariant :
    (∃ d, tinyLast.InvWithHistory d) ∧ tinyLast.seq ≠ .idle ∧
      ∃ t, step tinyLast = .next t ∧ t.seq = .idle ∧ historyAfter none tinyLast = some false :=
  ⟨⟨none, {
      inv := {
        cfgValid := by decide
        fbCanonical := by decide
        fbWithin := by decide
        unusedZero := fun i _ => by simp [tinyLast, tiny, block, bitRead, Memory.unlisted]
        seqInRange := ⟨by decide, by decide, fun _ => rfl⟩
        latchLevel := by decide
        clockLevel := by intro v h; cases h; rfl
        dataLevel := by intro i h; cases h; rfl
        chainWf := by decide }
      afterTransfer := by intro d h; cases h
      beforeTransfer := by intro _ h; cases h }⟩, by decide, _, rfl, rfl, rfl⟩

theorem witness_ResetMeetsTheHistoryInvariant : tiny.AfterReset := tiny_afterReset

end Sys2Proof.Tests
end

section
/-! PROOFS. The scope statements: no step changes the configuration (O30), and the clocked sequencer executes
the micro-operation list in order (O41). -/

namespace Sys2Proof.Machine

/-! ### The configuration and the chain's length -/

/-- A line write keeps the number of shift stages. -/
theorem writeLine_chain_sr_length (s : State) (l : Line) (v : Bool) :
    (s.writeLine l v).chain.sr.length = s.chain.sr.length := by
  cases l with
  | data => rfl
  | clock => rw [writeLine_clock_chain]; split <;> simp
  | latch => rw [writeLine_latch_chain]; split <;> simp

/-- Settles O30, by the cases of a step: only a line write reaches the chain, and it keeps the length. -/
theorem noStepChangesTheConfiguration : Obligations.NoStepChangesTheConfiguration := by
  intro s t h
  rcases step_cases h with ⟨-, rfl⟩ | ⟨-, upc, tick, line, v, -, -, rfl⟩ | ⟨-, upc, tick, -, -, rfl⟩ |
    ⟨-, -, -, rfl⟩ | ⟨-, -, -, i, -, he⟩ | ⟨-, -, -, op, -, rfl⟩
  · simp
  · exact ⟨by simp, by simpa using writeLine_chain_sr_length s.passEdge line v⟩
  · simp
  · simp
  · obtain ⟨-, -, -, hchain, hcfg, -⟩ := exec_frame he
    simp [hchain, hcfg]
  · simp

/-! ### The micro-operation list by index -/

theorem latchPulse_getElem? (p : Nat) : latchPulse[p]? = latchMicroOp p := by
  rcases Nat.lt_or_ge p 5 with h | h
  · interval_cases p <;> rfl
  · obtain ⟨q, rfl⟩ := Nat.exists_eq_add_of_le' h
    rfl

/-- The first byte sent is that of the last chip. -/
theorem microOp_succ_first {n p : Nat} (fb : Memory) (h : p < 40) :
    microOp (n + 1) fb p = some (cellMicroOp ((fb.read n).getLsbD (7 - p / 5)) (p % 5)) := by
  rw [microOp_data fb (by omega), Nat.mod_eq_of_lt h, Nat.div_eq_of_lt h]
  rfl

/-- Past the byte of the last chip the transfer is that of one chip less. -/
theorem microOp_succ_rest (n : Nat) (fb : Memory) (p : Nat) :
    microOp (n + 1) fb (40 + p) = microOp n fb p := by
  rcases Nat.lt_or_ge p (40 * n) with h | h
  · rw [microOp_data fb h, microOp_data fb (by omega), show (40 + p) / 40 = p / 40 + 1 by omega,
      show (40 + p) % 40 = p % 40 by omega, show (40 + p) % 5 = p % 5 by omega,
      show n + 1 - 1 - (p / 40 + 1) = n - 1 - p / 40 by omega]
  · obtain ⟨q, rfl⟩ := Nat.exists_eq_add_of_le h
    rw [show 40 + (40 * n + q) = 40 * (n + 1) + q by omega, microOp_latch, microOp_latch]

/-- `MicroOp(FB, upc)` is element `upc` of `MicroOps(FB)` (spec/41_serial_transmit.md R104). -/
theorem microOps_getElem? (n : Nat) (fb : Memory) (upc : Nat) :
    (microOps n fb)[upc]? = microOp n fb upc := by
  induction n generalizing upc with
  | zero => rw [microOps_zero, latchPulse_getElem?]; simpa using (microOp_latch 0 fb upc).symm
  | succ n ih =>
    rw [microOps_succ]
    rcases Nat.lt_or_ge upc 40 with h | h
    · rw [List.getElem?_append_left (by simpa using h), byteCells_getElem? _ h, microOp_succ_first fb h]
    · obtain ⟨p, rfl⟩ := Nat.exists_eq_add_of_le h
      rw [List.getElem?_append_right (by simp), byteCells_length, Nat.add_sub_cancel_left, ih,
        microOp_succ_rest]

/-- The last micro-operation is a write, so a hold is always followed by another one. -/
theorem seqAfter_of_hold {n upc : Nat} {fb : Memory} (h : microOp n fb upc = some .hold) :
    seqAfter n upc = .run (upc + 1) 0 := by
  have hlast : microOp n fb (microOpCount n - 1) = some (.write .latch false) := microOp_latch n fb 4
  refine if_neg fun e => ?_
  rw [e, hlast] at h
  cases h

/-! ### A state seen at a given place of the transfer -/

/-- The state without the host's schedule, and with the sequencer at `q`. -/
def State.blockAt (s : State) (q : Seq) : State := { s.withoutHost with seq := q }

@[simp] theorem blockAt_fb (s : State) (q : Seq) : (s.blockAt q).fb = s.fb := rfl
@[simp] theorem blockAt_cfg (s : State) (q : Seq) : (s.blockAt q).cfg = s.cfg := rfl
@[simp] theorem blockAt_seq (s : State) (q : Seq) : (s.blockAt q).seq = q := rfl
@[simp] theorem blockAt_blockAt (s : State) (q q' : Seq) : (s.blockAt q).blockAt q' = s.blockAt q' := rfl
@[simp] theorem blockAt_passEdge (s : State) (q : Seq) : s.passEdge.blockAt q = s.blockAt q := by
  rw [passEdge_eq]; rfl

theorem withoutHost_eq_blockAt (s : State) : s.withoutHost = s.blockAt s.seq := rfl

/-- A micro-operation neither reads nor writes the host's schedule and `SEQ`. -/
theorem microStep_blockAt (s : State) (op : MicroOp) (q : Seq) :
    (s.blockAt q).microStep op = (s.microStep op).blockAt q := by
  cases op with
  | hold => rfl
  | write line v => cases line <;> rfl

theorem runMicroOps_blockAt (s : State) (ops : List MicroOp) (q : Seq) :
    (s.blockAt q).runMicroOps ops = (s.runMicroOps ops).blockAt q := by
  induction ops generalizing s with
  | nil => rfl
  | cons op ops ih => simp only [runMicroOps_cons, microStep_blockAt, ih]

/-- States that agree without schedule and `SEQ` agree after the same micro-operations. -/
theorem runMicroOps_blockAt_congr {s t : State} {q : Seq} (h : t.withoutHost = s.blockAt q)
    (ops : List MicroOp) (q' : Seq) : (t.runMicroOps ops).blockAt q' = (s.runMicroOps ops).blockAt q' := by
  calc (t.runMicroOps ops).blockAt q'
      = (t.withoutHost.runMicroOps ops).blockAt q' := by
        rw [withoutHost_eq_blockAt, runMicroOps_blockAt, blockAt_blockAt]
    _ = (s.runMicroOps ops).blockAt q' := by rw [h, runMicroOps_blockAt, blockAt_blockAt]

/-! ### The edges of one micro-operation -/

/-- The edge of a write micro-operation (R109). -/
theorem step_write {s : State} {upc tick : Nat} {line : Line} {v : Bool} (hr : s.portNow.rst = false)
    (hs : s.seq = .run upc tick) (hop : microOp s.cfg.nChips s.fb upc = some (.write line v)) :
    step s = .next { s.passEdge.writeLine line v with seq := seqAfter s.cfg.nChips upc } := by
  rw [step_run hr hs]
  simp [sequencerEdge, hop]

/-- An edge of a hold (R111). -/
theorem step_hold {s : State} {upc tick : Nat} (hr : s.portNow.rst = false)
    (hs : s.seq = .run upc tick) (hop : microOp s.cfg.nChips s.fb upc = some .hold) :
    step s = .next { s.passEdge with
      seq := if tick = s.cfg.tUnit - 1 then .run (upc + 1) 0 else .run upc (tick + 1) } := by
  rw [step_run hr hs]
  simp [sequencerEdge, hop]

/-- A hold with `k + 1` edges to go takes them and changes `SEQ` alone. -/
theorem runEdges_hold {s : State} {upc tick k : Nat} (hr : noReset s.host) (hs : s.seq = .run upc tick)
    (hop : microOp s.cfg.nChips s.fb upc = some .hold) (hk : tick + k + 1 = s.cfg.tUnit) :
    ∃ t, runEdges (k + 1) s = .next t ∧ noReset t.host ∧ t.withoutHost = s.blockAt (.run (upc + 1) 0) := by
  induction k generalizing s tick with
  | zero =>
    obtain ⟨hrst, hrest⟩ := noReset_passEdge hr
    have hstep := step_hold hrst hs hop
    rw [if_pos (by omega)] at hstep
    exact ⟨_, (runEdges_one s).trans hstep, hrest, blockAt_passEdge s _⟩
  | succ k ih =>
    obtain ⟨hrst, hrest⟩ := noReset_passEdge hr
    have hstep := step_hold hrst hs hop
    rw [if_neg (by omega)] at hstep
    obtain ⟨t, hrun, ht, hblock⟩ := ih (s := { s.passEdge with seq := .run upc (tick + 1) }) hrest rfl
      (by simpa using hop) (by rw [passEdge_cfg]; omega)
    refine ⟨t, ?_, ht, hblock.trans (blockAt_passEdge s _)⟩
    rw [runEdges_succ, hstep]
    exact hrun

/-- The edges of one micro-operation do what the micro-operation does and move `SEQ` on. -/
theorem runEdges_microOp {s : State} {upc : Nat} {op : MicroOp} (hr : noReset s.host)
    (hs : s.seq = .run upc 0) (hop : microOp s.cfg.nChips s.fb upc = some op) (ht : 1 ≤ s.cfg.tUnit) :
    ∃ t, runEdges (op.edges s.cfg.tUnit) s = .next t ∧ noReset t.host ∧
      t.withoutHost = (s.microStep op).blockAt (seqAfter s.cfg.nChips upc) := by
  cases op with
  | write line v =>
    obtain ⟨hrst, hrest⟩ := noReset_passEdge hr
    refine ⟨_, (runEdges_one s).trans (step_write hrst hs hop), by simpa using hrest, ?_⟩
    exact runMicroOps_blockAt_congr (q := s.seq) (withoutHost_passEdge s) [.write line v] _
  | hold =>
    obtain ⟨k, hk⟩ := Nat.exists_eq_add_of_le' ht
    rw [seqAfter_of_hold hop, MicroOp.edges, hk]
    exact runEdges_hold hr hs hop (by omega)

/-! ### The edges of the first micro-operations of a transfer -/

/-- `SEQ` once the first `m` micro-operations are complete. -/
def seqAt (n m : Nat) : Seq := if m = 40 * n + 5 then .idle else .run m 0

theorem seqAt_of_lt {n m : Nat} (h : m < 40 * n + 5) : seqAt n m = .run m 0 := if_neg (by omega)

theorem seqAfter_eq_seqAt (n upc : Nat) : seqAfter n upc = seqAt n (upc + 1) :=
  if_congr (by unfold microOpCount; omega) rfl rfl

/-- From the start of a transfer the edges of the first `m` micro-operations do what these do in order. -/
theorem runEdges_edgesFor {s : State} {m : Nat} (hr : noReset s.host) (hs : s.seq = .run 0 0)
    (ht : 1 ≤ s.cfg.tUnit) (hm : m ≤ 40 * s.cfg.nChips + 5) :
    ∃ t, runEdges (edgesFor s.cfg s.fb m) s = .next t ∧ noReset t.host ∧
      t.withoutHost =
        (s.runMicroOps ((microOps s.cfg.nChips s.fb).take m)).blockAt (seqAt s.cfg.nChips m) := by
  induction m with
  | zero =>
    refine ⟨s, rfl, hr, ?_⟩
    rw [seqAt_of_lt (by omega), ← hs]
    rfl
  | succ m ih =>
    obtain ⟨t, hrun, htr, hblock⟩ := ih (by omega)
    have hseq : t.seq = .run m 0 := by
      rw [← withoutHost_seq, hblock, blockAt_seq, seqAt_of_lt hm]
    have hcfg : t.cfg = s.cfg := by rw [← withoutHost_cfg, hblock]; simp
    have hfb : t.fb = s.fb := by rw [← withoutHost_fb, hblock]; simp
    obtain ⟨op, hop⟩ := Option.isSome_iff_exists.mp ((microOp_isSome_iff s.cfg.nChips s.fb m).mpr hm)
    have hget := (microOps_getElem? s.cfg.nChips s.fb m).trans hop
    obtain ⟨u, hrun', hur, hblock'⟩ :=
      runEdges_microOp htr hseq (by rw [hcfg, hfb]; exact hop) (by rw [hcfg]; exact ht)
    refine ⟨u, ?_, hur, ?_⟩
    · rw [edgesFor_succ hget, runEdges_add hrun, ← hcfg, hrun']
    · rw [hblock', hcfg, seqAfter_eq_seqAt, List.take_add_one, hget, runMicroOps_append]
      exact runMicroOps_blockAt_congr hblock [op] _

/-- The edge that accepts a TRANSMIT starts the sequencer and passes the host's act (R108). -/
theorem step_transmit {s : State} {w : Word} (hs : s.seq = .idle)
    (hp : s.portNow = { rst := false, cmdValid := true, cmdWord := w })
    (hd : decode w = .instr .transmit) :
    step s = .next { s with seq := .run 0 0, host := s.host.tail } := by
  have htail := passEdge_host_tail (s := s) (.inr (.inr hs))
  rw [step_accept (by rw [hp]) hs (by rw [hp]) (by rw [hp]; exact hd), passEdge_eq, htail]
  rfl

/-- Settles O41, by induction on the micro-operations completed: each is refined by its own edges. -/
theorem cycleLevelRefinesEventLevel : Obligations.CycleLevelRefinesEventLevel := by
  intro s w m hvalid hs hp hd hr hm
  obtain ⟨-, -, -, -, -, htUnit⟩ := hvalid
  obtain ⟨t, hrun, -, hblock⟩ :=
    runEdges_edgesFor (s := { s with seq := .run 0 0, host := s.host.tail }) hr rfl htUnit hm
  refine ⟨t, (runEdges_add ((runEdges_one s).trans (step_transmit hs hp hd))).trans hrun, ?_⟩
  exact hblock.trans (runMicroOps_blockAt_congr (s := s) (q := .run 0 0) rfl _ _)

end Sys2Proof.Machine
end

section
/-! PROOFS. The statements on the state: every reset meets the invariant and every step keeps it, alone and with
the history of transfers (O45, O46, O51, O52), what this says of reachable states (O47, O48, O49), who writes the
frame buffer and the lines (O28, O29), the read-back port (O33), and the step of a running transfer (O22, O27). -/

namespace Sys2Proof.Machine

/-! ### Which micro-operation stands at which index -/

/-- CLOCK is written at the first and the fourth place of a bit cell. -/
theorem microOp_write_clock {n upc : Nat} {fb : Memory} {v : Bool}
    (h : microOp n fb upc = some (.write .clock v)) :
    upc < 40 * n ∧ ((upc % 5 = 0 ∧ v = false) ∨ (upc % 5 = 3 ∧ v = true)) := by
  rcases Nat.lt_or_ge upc (40 * n) with hlt | hge
  · refine ⟨hlt, ?_⟩
    rcases microOp_data_write hlt h with ⟨h5, -, hv⟩ | ⟨-, hl, -⟩ | ⟨h5, -, hv⟩
    · exact .inl ⟨h5, hv⟩
    · cases hl
    · exact .inr ⟨h5, hv⟩
  · obtain ⟨p, rfl⟩ := Nat.exists_eq_add_of_le hge
    rw [microOp_latch] at h
    cases (latchMicroOp_write h).1

/-- DATA is written at the second place of a bit cell, with the bit the cell carries. -/
theorem microOp_write_data {n upc : Nat} {fb : Memory} {v : Bool}
    (h : microOp n fb upc = some (.write .data v)) :
    upc < 40 * n ∧ upc % 5 = 1 ∧ v = bitRead fb (8 * n - 1 - upc / 5) := by
  rcases Nat.lt_or_ge upc (40 * n) with hlt | hge
  · rcases microOp_data_write hlt h with ⟨-, hl, -⟩ | ⟨h5, -, hv⟩ | ⟨-, hl, -⟩
    · cases hl
    · exact ⟨hlt, h5, hv⟩
    · cases hl
  · obtain ⟨p, rfl⟩ := Nat.exists_eq_add_of_le hge
    rw [microOp_latch] at h
    cases (latchMicroOp_write h).1

/-- LATCH is written in the latch pulse alone: low, high, low. -/
theorem microOp_write_latch {n upc : Nat} {fb : Memory} {v : Bool}
    (h : microOp n fb upc = some (.write .latch v)) :
    (upc = 40 * n ∧ v = false) ∨ (upc = 40 * n + 2 ∧ v = true) ∨ (upc = 40 * n + 4 ∧ v = false) := by
  rcases Nat.lt_or_ge upc (40 * n) with hlt | hge
  · rcases microOp_data_write hlt h with ⟨-, hl, -⟩ | ⟨-, hl, -⟩ | ⟨-, hl, -⟩ <;> cases hl
  · obtain ⟨p, rfl⟩ := Nat.exists_eq_add_of_le hge
    rw [microOp_latch] at h
    rcases (latchMicroOp_write h).2 with ⟨rfl, hv⟩ | ⟨rfl, hv⟩ | ⟨rfl, hv⟩
    · exact .inl ⟨rfl, hv⟩
    · exact .inr (.inl ⟨rfl, hv⟩)
    · exact .inr (.inr ⟨rfl, hv⟩)

/-- The holds: two in a bit cell and two in the latch pulse. -/
theorem microOp_hold {n upc : Nat} {fb : Memory} (h : microOp n fb upc = some .hold) :
    (upc < 40 * n ∧ (upc % 5 = 2 ∨ upc % 5 = 4)) ∨ upc = 40 * n + 1 ∨ upc = 40 * n + 3 := by
  rcases Nat.lt_or_ge upc (40 * n) with hlt | hge
  · refine .inl ⟨hlt, ?_⟩
    rw [microOp_data _ hlt, Option.some.injEq] at h
    have h5 : upc % 5 < 5 := Nat.mod_lt _ (by omega)
    generalize upc % 5 = p at h h5 ⊢
    interval_cases p <;> simp_all [cellMicroOp]
  · obtain ⟨p, rfl⟩ := Nat.exists_eq_add_of_le hge
    rw [microOp_latch] at h
    unfold latchMicroOp at h
    split at h <;> simp_all

/-- The last micro-operation of a transfer pulls LATCH low. -/
theorem microOp_last (n : Nat) (fb : Memory) :
    microOp n fb (microOpCount n - 1) = some (.write .latch false) :=
  microOp_latch n fb 4

/-! ### The levels a completed micro-operation calls for -/

theorem seqAfter_eq_idle_iff (n upc : Nat) : seqAfter n upc = .idle ↔ upc = microOpCount n - 1 := by
  unfold seqAfter
  split <;> simp_all

theorem seqAfter_of_ne_last {n upc : Nat} (h : upc ≠ microOpCount n - 1) :
    seqAfter n upc = .run (upc + 1) 0 := if_neg h

/-- Where the sequencer goes after a micro-operation is within R33's bounds. -/
theorem seqAfter_inRange {n tUnit upc : Nat} {fb : Memory} (hu : upc < microOpCount n) (ht : 1 ≤ tUnit) :
    (seqAfter n upc).inRange n tUnit fb := by
  by_cases hl : upc = microOpCount n - 1
  · rw [(seqAfter_eq_idle_iff n upc).2 hl]; trivial
  · rw [seqAfter_of_ne_last hl]; exact ⟨by omega, by omega, fun _ => rfl⟩

theorem latchLevel_run (n upc tick : Nat) :
    (Seq.run upc tick).latchLevel n = decide (upc = 40 * n + 3 ∨ upc = 40 * n + 4) := rfl

theorem latchLevel_seqAfter (n upc : Nat) :
    (seqAfter n upc).latchLevel n = decide (upc = 40 * n + 2 ∨ upc = 40 * n + 3) := by
  by_cases hl : upc = microOpCount n - 1
  · rw [(seqAfter_eq_idle_iff n upc).2 hl]
    unfold microOpCount at hl
    exact (decide_eq_false (by omega)).symm
  · rw [seqAfter_of_ne_last hl]
    exact decide_eq_decide.2 (by omega)

theorem clockLevel_run {n upc tick : Nat} (h : upc ≠ 0) :
    (Seq.run upc tick).clockLevel n = some (decide (40 * n ≤ upc ∨ upc % 5 = 4 ∨ upc % 5 = 0)) := if_neg h

theorem clockLevel_seqAfter {n upc : Nat} {v : Bool} (h : (seqAfter n upc).clockLevel n = some v) :
    v = decide (40 * n ≤ upc + 1 ∨ upc % 5 = 3 ∨ upc % 5 = 4) := by
  by_cases hl : upc = microOpCount n - 1
  · rw [(seqAfter_eq_idle_iff n upc).2 hl] at h; cases h
  · rw [seqAfter_of_ne_last hl, clockLevel_run (by omega), Option.some.injEq] at h
    rw [← h]
    exact decide_eq_decide.2 (by omega)

theorem dataIndex_run {n upc tick : Nat} (h : 1 < upc) :
    (Seq.run upc tick).dataIndex n = some (8 * n - 1 - min ((upc - 2) / 5) (8 * n - 1)) :=
  if_neg (by omega)

theorem dataIndex_seqAfter {n upc i : Nat} (h : (seqAfter n upc).dataIndex n = some i) :
    1 ≤ upc ∧ i = 8 * n - 1 - min ((upc - 1) / 5) (8 * n - 1) := by
  by_cases hl : upc = microOpCount n - 1
  · rw [(seqAfter_eq_idle_iff n upc).2 hl] at h; cases h
  · rw [seqAfter_of_ne_last hl] at h
    by_cases h0 : upc = 0
    · subst h0; cases h
    · rw [dataIndex_run (by omega), Option.some.injEq] at h
      omega

/-! ### The invariant: changes of single fields -/

/-- A line write keeps the chain's shape. -/
theorem writeLine_chainWf {s : State} (h : s.chain.wf) (l : Line) (v : Bool) : (s.writeLine l v).chain.wf := by
  obtain ⟨hsr, hout⟩ := writeLine_chain_wf s (l := l) (v := v) h.1
  exact ⟨hout.trans hsr.symm, by rw [hsr]; exact h.2⟩

theorem microStep_chainWf {s : State} (h : s.chain.wf) (op : MicroOp) : (s.microStep op).chain.wf := by
  cases op with
  | hold => exact h
  | write line v => exact writeLine_chainWf h line v

/-- A state a reset leaves meets the invariant: the buffer is clear, the block idle and LATCH low. -/
theorem State.AfterReset.inv {s : State} (h : s.AfterReset) : s.Inv := by
  obtain ⟨hs, hcfg, hchain⟩ := h
  rw [hs]
  exact {
    cfgValid := hcfg
    fbCanonical := cleared_wf
    fbWithin := cleared_within _
    unusedZero := fun i _ => bitRead_cleared i
    seqInRange := trivial
    latchLevel := rfl
    clockLevel := nofun
    dataLevel := nofun
    chainWf := hchain }

/-- An edge with `rst = 1` leaves a state after reset (R170). -/
theorem State.Inv.afterReset {s : State} (h : s.Inv) : s.passEdge.blockReset.AfterReset :=
  ⟨rfl, by simpa using h.cfgValid, by simpa using h.chainWf⟩

/-- The bounds of `Run(upc, t)` (R33). -/
theorem State.Inv.run_bounds {s : State} {upc tick : Nat} (h : s.Inv) (hs : s.seq = .run upc tick) :
    upc < microOpCount s.cfg.nChips ∧ tick < s.cfg.tUnit := by
  have hrange := h.seqInRange
  rw [hs] at hrange
  exact ⟨hrange.1, hrange.2.1⟩

/-- The invariant does not speak of the host's schedule. -/
theorem State.Inv.passEdge {s : State} (h : s.Inv) : s.passEdge.Inv := by
  rw [passEdge_eq]
  exact { h with }

/-- An idle block may take any frame buffer of the right form. -/
theorem State.Inv.withBuffer {s : State} (h : s.Inv) (hs : s.seq = .idle) {fb : Memory} (hwf : fb.wf)
    (hwithin : fb.within s.cfg.nChips)
    (hunused : ∀ i, s.cfg.nCols * s.cfg.nRows ≤ i → bitRead fb i = false) :
    ({ s with fb := fb } : State).Inv :=
  { h with
    fbCanonical := hwf
    fbWithin := hwithin
    unusedZero := hunused
    seqInRange := by simp [hs, Seq.inRange]
    dataLevel := by simp [hs, Seq.dataIndex] }

/-- The write of a SET reaches a byte of the buffer and no unused bit. -/
theorem State.Inv.setBit {s : State} (h : s.Inv) (hs : s.seq = .idle) {c r : Int} {k j : Nat}
    (ht : translate s.cfg c r = some (k, j)) (v : Bool) :
    ({ s with fb := s.fb.writeBit k j v } : State).Inv := by
  obtain ⟨⟨hc, hc'⟩, ⟨hr, hr'⟩, hk, hj, hchip⟩ := translate_some ht
  have hlt := linearIndex_lt hc hc' hr hr'
  refine h.withBuffer hs (writeBit_wf h.fbCanonical k j v) (writeBit_within h.fbWithin hchip j v) fun i hi => ?_
  rw [bitRead_writeBit h.fbCanonical k (by omega), if_neg (by omega)]
  exact h.unusedZero i hi

/-- The start of a transfer: its first index is in range and fixes no level but LATCH low. -/
theorem State.Inv.startTransfer {s : State} (h : s.Inv) (hs : s.seq = .idle) :
    ({ s with seq := .run 0 0 } : State).Inv := by
  obtain ⟨-, -, -, -, -, htUnit⟩ := h.cfgValid
  exact { h with
    seqInRange := ⟨Nat.succ_pos _, htUnit, fun _ => rfl⟩
    latchLevel := by rw [h.latchLevel, hs, latchLevel_run, decide_eq_false (by omega)]; rfl
    clockLevel := nofun
    dataLevel := nofun }

/-- Every command keeps the invariant of an idle block. -/
theorem State.Inv.executeCommand {i : Instr} {s t : State} (h : s.Inv) (hs : s.seq = .idle)
    (he : exec i s = .next t) : t.Inv := by
  rcases exec_cases he with ⟨-, rfl⟩ | ⟨c, r, v, -, ⟨-, rfl⟩ | ⟨k, j, ht, rfl⟩⟩ | ⟨-, rfl⟩ | ⟨-, rfl⟩
  · exact h
  · exact h
  · exact h.setBit hs ht v
  · exact h.withBuffer hs cleared_wf (cleared_within _) fun i _ => bitRead_cleared i
  · exact h.startTransfer hs

/-! ### The invariant: the sequencer's edges -/

section
variable {s : State} {upc tick : Nat} {op : MicroOp} (h : s.Inv) (hs : s.seq = .run upc tick)
  (hop : microOp s.cfg.nChips s.fb upc = some op)
include h hs hop

/-- LATCH after a micro-operation is high exactly in the two phases of R34 item 3. -/
theorem State.Inv.latch_microStep :
    (s.microStep op).latch = (seqAfter s.cfg.nChips upc).latchLevel s.cfg.nChips := by
  have hbefore : s.latch = decide (upc = 40 * s.cfg.nChips + 3 ∨ upc = 40 * s.cfg.nChips + 4) := by
    rw [h.latchLevel, hs, latchLevel_run]
  rw [latchLevel_seqAfter]
  cases op with
  | hold => have := microOp_hold hop; exact hbefore.trans (decide_eq_decide.2 (by omega))
  | write line v =>
    cases line with
    | clock => have := microOp_write_clock hop; exact hbefore.trans (decide_eq_decide.2 (by omega))
    | data => have := microOp_write_data hop; exact hbefore.trans (decide_eq_decide.2 (by omega))
    | latch =>
      rw [microStep_write, writeLine_latch_latch]
      rcases microOp_write_latch hop with ⟨hu, rfl⟩ | ⟨hu, rfl⟩ | ⟨hu, rfl⟩
      · exact (decide_eq_false (by omega)).symm
      · exact (decide_eq_true (by omega)).symm
      · exact (decide_eq_false (by omega)).symm

/-- CLOCK after a micro-operation has the level of the phase that follows. -/
theorem State.Inv.clock_microStep {v : Bool}
    (hv : (seqAfter s.cfg.nChips upc).clockLevel s.cfg.nChips = some v) : (s.microStep op).clock = v := by
  obtain ⟨-, -, -, -, hn, -⟩ := h.cfgValid
  have hbefore (hu : upc ≠ 0) : s.clock = decide (40 * s.cfg.nChips ≤ upc ∨ upc % 5 = 4 ∨ upc % 5 = 0) :=
    h.clockLevel _ (by rw [hs, clockLevel_run hu])
  rw [clockLevel_seqAfter hv]
  cases op with
  | hold => have := microOp_hold hop; exact (hbefore (by omega)).trans (decide_eq_decide.2 (by omega))
  | write line v =>
    cases line with
    | clock =>
      rw [microStep_write, writeLine_clock_clock]
      rcases microOp_write_clock hop with ⟨hu, ⟨h5, rfl⟩ | ⟨h5, rfl⟩⟩
      · exact (decide_eq_false (by omega)).symm
      · exact (decide_eq_true (by omega)).symm
    | data => have := microOp_write_data hop; exact (hbefore (by omega)).trans (decide_eq_decide.2 (by omega))
    | latch => have := microOp_write_latch hop; exact (hbefore (by omega)).trans (decide_eq_decide.2 (by omega))

/-- DATA after a micro-operation carries the bit of the phase that follows. -/
theorem State.Inv.data_microStep {i : Nat}
    (hi : (seqAfter s.cfg.nChips upc).dataIndex s.cfg.nChips = some i) :
    (s.microStep op).data = bitRead s.fb i := by
  obtain ⟨-, -, -, -, hn, -⟩ := h.cfgValid
  obtain ⟨hu, rfl⟩ := dataIndex_seqAfter hi
  have hbefore (hu : 1 < upc) :
      s.data = bitRead s.fb (8 * s.cfg.nChips - 1 - min ((upc - 2) / 5) (8 * s.cfg.nChips - 1)) :=
    h.dataLevel _ (by rw [hs, dataIndex_run hu])
  cases op with
  | hold => have := microOp_hold hop; exact (hbefore (by omega)).trans (congrArg (bitRead s.fb) (by omega))
  | write line v =>
    cases line with
    | clock =>
      have := microOp_write_clock hop
      exact (hbefore (by omega)).trans (congrArg (bitRead s.fb) (by omega))
    | data =>
      obtain ⟨hlt, h5, rfl⟩ := microOp_write_data hop
      exact congrArg (bitRead s.fb) (by omega)
    | latch =>
      have := microOp_write_latch hop
      exact (hbefore (by omega)).trans (congrArg (bitRead s.fb) (by omega))

/-- A completed micro-operation keeps the invariant. -/
theorem State.Inv.completeMicroOp :
    ({ s.microStep op with seq := seqAfter s.cfg.nChips upc } : State).Inv := by
  obtain ⟨-, -, -, -, -, htUnit⟩ := h.cfgValid
  obtain ⟨hu, -⟩ := h.run_bounds hs
  exact {
    cfgValid := by simpa using h.cfgValid
    fbCanonical := by simpa using h.fbCanonical
    fbWithin := by simpa using h.fbWithin
    unusedZero := by simpa using h.unusedZero
    seqInRange := by simpa using seqAfter_inRange hu htUnit
    latchLevel := by simpa using h.latch_microStep hs hop
    clockLevel := by simpa using fun v => h.clock_microStep hs hop (v := v)
    dataLevel := by simpa using fun i => h.data_microStep hs hop (i := i)
    chainWf := microStep_chainWf h.chainWf op }

end

/-- An edge inside a hold keeps the invariant: only the count of edges moves on. -/
theorem State.Inv.countHold {s : State} {upc tick : Nat} (h : s.Inv) (hs : s.seq = .run upc tick)
    (hop : microOp s.cfg.nChips s.fb upc = some .hold) (ht : tick ≠ s.cfg.tUnit - 1) :
    ({ s with seq := .run upc (tick + 1) } : State).Inv := by
  obtain ⟨hu, htick⟩ := h.run_bounds hs
  have htick' : tick + 1 < s.cfg.tUnit := by omega
  exact { h with
    seqInRange := ⟨hu, htick', by simp [hop, MicroOp.isWrite]⟩
    latchLevel := by rw [h.latchLevel, hs]; rfl
    clockLevel := fun v hv => h.clockLevel v (by rw [hs]; exact hv)
    dataLevel := fun i hi => h.dataLevel i (by rw [hs]; exact hi) }

/-! ### Every step keeps the invariant -/

/-- Settles O46, by the cases of a step: a reset starts afresh, a sequencer's edge completes a micro-operation
or counts a hold, and an idle block executes a command or does nothing. -/
theorem stepKeepsTheInvariant : Obligations.StepKeepsTheInvariant := by
  intro s t h hst
  rcases step_cases hst with ⟨-, rfl⟩ | ⟨-, upc, tick, line, v, hs, hop, rfl⟩ | ⟨-, upc, tick, hs, hop, rfl⟩ |
    ⟨-, -, -, rfl⟩ | ⟨-, hs, -, i, -, he⟩ | ⟨-, -, -, op, -, rfl⟩
  · exact h.afterReset.inv
  · rw [← passEdge_cfg s, ← passEdge_fb s] at hop
    rw [← passEdge_cfg s]
    exact h.passEdge.completeMicroOp ((passEdge_seq s).trans hs) hop
  · rw [← passEdge_cfg s, ← passEdge_fb s] at hop
    rw [← passEdge_cfg s]
    split
    · rw [← seqAfter_of_hold hop]
      exact h.passEdge.completeMicroOp ((passEdge_seq s).trans hs) hop
    · rename_i htick
      exact h.passEdge.countHold ((passEdge_seq s).trans hs) hop htick
  · exact h.passEdge
  · exact h.passEdge.executeCommand ((passEdge_seq s).trans hs) he
  · exact h.passEdge

/-! ### What resets meet -/

/-- This hardware's reset state is a state after reset: its parameters are those of R6 and its chain has 4
chips. -/
theorem reset_afterReset : State.reset.AfterReset :=
  ⟨rfl, ⟨by decide, by decide, by decide, by decide, by decide, Nat.succ_pos _⟩,
    by simp [State.reset, Chain.atPowerUp, Chain.wf]⟩

/-- Settles O45: R32's values meet each clause. -/
theorem resetMeetsTheInvariant : Obligations.ResetMeetsTheInvariant :=
  ⟨reset_afterReset.inv, fun _ h => h.inv⟩

/-- After a reset no transfer has completed, and CLOCK and DATA are low (R32). -/
theorem State.AfterReset.invWithHistory {s : State} (h : s.AfterReset) : s.InvWithHistory none where
  inv := h.inv
  afterTransfer := nofun
  beforeTransfer := fun _ _ => by rw [h.1]; exact ⟨rfl, rfl⟩

/-- Settles O51: R32 leaves CLOCK and DATA low. -/
theorem resetMeetsTheHistoryInvariant : Obligations.ResetMeetsTheHistoryInvariant :=
  ⟨reset_afterReset.invWithHistory, fun _ h => h.invWithHistory⟩

/-! ### The lines over one step -/

/-- The level of a line does not depend on the sequencer. -/
theorem lineLevel_withSeq (s : State) (q : Seq) (l : Line) :
    ({ s with seq := q } : State).lineLevel l = s.lineLevel l := by
  cases l <;> rfl

/-- What a step does to the lines: a reset, one line write of the sequencer, or nothing. -/
theorem step_lineLevel_cases {s t : State} (h : step s = .next t) :
    s.portNow.rst = true ∨
    (∃ upc tick line v, s.seq = .run upc tick ∧ microOp s.cfg.nChips s.fb upc = some (.write line v) ∧
      t.lineLevel line = v ∧ ∀ l, l ≠ line → t.lineLevel l = s.lineLevel l) ∨
    ∀ l, t.lineLevel l = s.lineLevel l := by
  rcases step_cases h with ⟨hr, -⟩ | ⟨-, upc, tick, line, v, hs, hop, rfl⟩ | ⟨-, upc, tick, -, -, rfl⟩ |
    ⟨-, -, -, rfl⟩ | ⟨-, -, -, i, -, he⟩ | ⟨-, -, -, op, -, rfl⟩
  · exact .inl hr
  · refine .inr (.inl ⟨upc, tick, line, v, hs, hop, ?_, fun l hl => ?_⟩)
    · rw [lineLevel_withSeq, writeLine_lineLevel_self]
    · rw [lineLevel_withSeq, writeLine_lineLevel_other _ v hl, passEdge_lineLevel]
  · exact .inr (.inr fun l => by rw [lineLevel_withSeq, passEdge_lineLevel])
  · exact .inr (.inr (passEdge_lineLevel s))
  · obtain ⟨hdata, hclock, hlatch, -, -, -⟩ := exec_frame he
    exact .inr (.inr fun l => by cases l <;> simp [State.lineLevel, hdata, hclock, hlatch])
  · exact .inr (.inr (passEdge_lineLevel s))

/-- Settles O29: in the one case of a step that writes a line, the line that changed is the one written. -/
theorem onlyMicroOperationsAndResetWriteTheLines :
    Obligations.OnlyMicroOperationsAndResetWriteTheLines := by
  intro s t line h hne
  rcases step_lineLevel_cases h with hr | ⟨upc, tick, l, v, hs, hop, hv, hother⟩ | hsame
  · exact .inl hr
  · have hl : line = l := by
      by_contra hl
      exact hne (hother line hl)
    subst hl
    exact .inr ⟨upc, tick, hs, by rw [hv]; exact hop, hother⟩
  · exact absurd (hsame line) hne

/-- How a step comes to end idle: by a reset, by the last micro-operation of a transfer, or from idle; CLOCK and
DATA change at a reset alone. -/
theorem step_to_idle {s t : State} (h : step s = .next t) (ht : t.seq = .idle) :
    (s.portNow.rst = true ∧ t.clock = false ∧ t.data = false) ∨
    (s.portNow.rst = false ∧ ((∃ tick, s.seq = .run (microOpCount s.cfg.nChips - 1) tick) ∨ s.seq = .idle) ∧
      t.clock = s.clock ∧ t.data = s.data) := by
  rcases step_cases h with ⟨hr, rfl⟩ | ⟨hr, upc, tick, line, v, hs, hop, rfl⟩ | ⟨-, upc, tick, -, -, rfl⟩ |
    ⟨hr, hs, -, rfl⟩ | ⟨hr, hs, -, i, -, he⟩ | ⟨hr, hs, -, op, -, rfl⟩
  · exact .inl ⟨hr, rfl, rfl⟩
  · obtain rfl := (seqAfter_eq_idle_iff _ _).1 ht
    rw [microOp_last] at hop
    cases hop
    exact .inr ⟨hr, .inl ⟨tick, hs⟩, passEdge_clock s, passEdge_data s⟩
  · dsimp only at ht
    split at ht <;> cases ht
  · exact .inr ⟨hr, .inr hs, passEdge_clock s, passEdge_data s⟩
  · obtain ⟨hdata, hclock, -⟩ := exec_frame he
    exact .inr ⟨hr, .inr hs, hclock.trans (passEdge_clock s), hdata.trans (passEdge_data s)⟩
  · exact .inr ⟨hr, .inr hs, passEdge_clock s, passEdge_data s⟩

/-! ### Every step keeps the invariant with the history of transfers -/

/-- At the last micro-operation of a transfer CLOCK is high and DATA carries `FB[0][0]` (R106). -/
theorem State.Inv.lines_at_last {s : State} {tick : Nat} (h : s.Inv)
    (hs : s.seq = .run (microOpCount s.cfg.nChips - 1) tick) :
    s.clock = true ∧ s.data = bitRead s.fb 0 := by
  constructor
  · refine h.clockLevel true ?_
    rw [hs, clockLevel_run (by unfold microOpCount; omega), decide_eq_true]
    unfold microOpCount; omega
  · refine h.dataLevel 0 ?_
    rw [hs, dataIndex_run (by unfold microOpCount; omega), Option.some.injEq]
    unfold microOpCount; omega

/-- Settles O52: a step that ends idle was a reset, the edge that records the history, or kept the lines and
the history of an idle block. -/
theorem stepKeepsTheHistoryInvariant : Obligations.StepKeepsTheHistoryInvariant := by
  intro h s t hinv hst
  have hlines (ht : t.seq = .idle) :
      (∀ d, historyAfter h s = some d → t.clock = true ∧ t.data = d) ∧
      (historyAfter h s = none → t.clock = false ∧ t.data = false) := by
    rcases step_to_idle hst ht with ⟨hr, hclock, hdata⟩ | ⟨hr, ⟨tick, hs⟩ | hs, hclock, hdata⟩
    · rw [historyAfter_reset hr]
      exact ⟨nofun, fun _ => ⟨hclock, hdata⟩⟩
    · rw [historyAfter_lastMicroOp hr hs, hclock, hdata]
      refine ⟨fun d hd => ?_, nofun⟩
      cases hd
      exact hinv.inv.lines_at_last hs
    · rw [historyAfter_otherEdge hr (by simp [hs]), hclock, hdata]
      exact ⟨fun d hd => hinv.afterTransfer d hd hs, fun hn => hinv.beforeTransfer hn hs⟩
  exact {
    inv := stepKeepsTheInvariant s t hinv.inv hst
    afterTransfer := fun d hd ht => (hlines ht).1 d hd
    beforeTransfer := fun hn ht => (hlines ht).2 hn }

/-! ### Who writes the frame buffer -/

/-- A running transfer accepts no command (R26). -/
theorem accepts_of_running {s : State} (h : s.seq ≠ .idle) : s.accepts = false := by
  cases hs : s.seq with
  | idle => exact absurd hs h
  | run upc tick => simp [State.accepts, State.cmdReady, hs]

/-- Settles O28: of the cases of a step only the reset and two commands have another buffer. -/
theorem onlySetClearAllAndResetWriteTheBuffer : Obligations.OnlySetClearAllAndResetWriteTheBuffer := by
  intro s t h hne
  rcases step_cases h with ⟨hr, -⟩ | ⟨-, upc, tick, line, v, -, -, rfl⟩ | ⟨-, upc, tick, -, -, rfl⟩ |
    ⟨-, -, -, rfl⟩ | ⟨hr, hs, hv, i, hd, he⟩ | ⟨-, -, -, op, -, rfl⟩
  · exact .inl hr
  · exact absurd (by simp) hne
  · exact absurd (passEdge_fb s) hne
  · exact absurd (passEdge_fb s) hne
  · refine .inr ⟨by simp [State.accepts, State.cmdReady, hr, hs, hv], ?_⟩
    rcases exec_cases he with ⟨-, rfl⟩ | ⟨c, r, v, rfl, -⟩ | ⟨rfl, -⟩ | ⟨-, rfl⟩
    · exact absurd (passEdge_fb s) hne
    · exact .inl ⟨c, r, v, hd⟩
    · exact .inr hd
    · exact absurd (passEdge_fb s) hne
  · exact absurd (passEdge_fb s) hne

/-! ### Reachable states -/

/-- A state with a history meets the invariant with that history. -/
theorem History.invWithHistory {d : Option Bool} {s : State} (h : History d s) : s.InvWithHistory d := by
  induction h with
  | reset s hs => exact hs.invWithHistory
  | resetEdge d s t _ hr hst ih =>
    rw [← historyAfter_reset (h := d) hr]
    exact stepKeepsTheHistoryInvariant d s t ih hst
  | lastMicroOp d s t tick _ hr hs hst ih =>
    rw [← historyAfter_lastMicroOp (h := d) hr hs]
    exact stepKeepsTheHistoryInvariant d s t ih hst
  | otherEdge d s t _ hr hs hst ih =>
    have := stepKeepsTheHistoryInvariant d s t ih hst
    rwa [historyAfter_otherEdge hr hs] at this

/-- Settles O47: four items are clauses of the invariant; the buffer rests during a transfer because only an
accepted command or a reset writes it. -/
theorem reachableStatesMeetTheRules : Obligations.ReachableStatesMeetTheRules := by
  intro h s hist
  have hinv := hist.invWithHistory
  refine ⟨fun i hi _ => hinv.inv.unusedZero i hi, fun hs => ?_, fun upc tick hs => ?_,
    fun t hs hr hst => ?_, hinv.afterTransfer⟩
  · rw [hinv.inv.latchLevel, hs]; rfl
  · rw [hinv.inv.latchLevel, hs, latchLevel_run, decide_eq_true_iff]
  · by_contra hne
    rcases onlySetClearAllAndResetWriteTheBuffer s t hst hne with hr' | ⟨hacc, -⟩
    · rw [hr] at hr'; cases hr'
    · rw [accepts_of_running hs] at hacc; cases hacc

/-- Settles O48: the clause of the history invariant before the first transfer. -/
theorem linesAreLowBeforeTheFirstTransfer : Obligations.LinesAreLowBeforeTheFirstTransfer :=
  fun _ hist hs => hist.invWithHistory.beforeTransfer rfl hs

/-- Every command completes (R150). -/
theorem exec_total (i : Instr) (s : State) : ∃ t, exec i s = .next t := by
  cases i with
  | nop => exact ⟨_, rfl⟩
  | set c r v =>
    cases ht : translate s.cfg c r with
    | none => exact ⟨_, execSet_dropped v ht⟩
    | some kj => exact ⟨_, execSet_written v ht⟩
  | clearAll => exact ⟨_, rfl⟩
  | transmit => exact ⟨_, rfl⟩

/-- A step has a next state while the micro-operation index is one of R33's type. -/
theorem step_total_of_lt {s : State} (h : ∀ upc tick, s.seq = .run upc tick → upc < microOpCount s.cfg.nChips) :
    ∃ t, step s = .next t := by
  cases hr : s.portNow.rst with
  | true => exact ⟨_, step_reset hr⟩
  | false =>
    cases hs : s.seq with
    | run upc tick =>
      obtain ⟨op, hop⟩ := Option.isSome_iff_exists.1 ((microOp_isSome_iff _ s.fb _).2 (h upc tick hs))
      cases op with
      | write line v => exact ⟨_, step_write hr hs hop⟩
      | hold => exact ⟨_, step_hold hr hs hop⟩
    | idle =>
      cases hv : s.portNow.cmdValid with
      | false => exact ⟨_, step_quiet hr hs hv⟩
      | true =>
        cases hd : decode s.portNow.cmdWord with
        | reserved op => exact ⟨_, step_reserved hr hs hv hd⟩
        | instr i => rw [step_accept hr hs hv hd]; exact exec_total i _

/-- Settles O49: a reachable state meets the invariant, which bounds the index. -/
theorem reachableStatesNeverStop : Obligations.ReachableStatesNeverStop := by
  intro s hreach
  have hinv : s.Inv := hreach.of_invariant (fun _ h => h.inv) stepKeepsTheInvariant
  exact step_total_of_lt fun upc tick hs => (hinv.run_bounds hs).1

/-! ### The read-back port -/

/-- Settles O33: a byte of the flat vector has the bits `BitRead` gives it. -/
theorem readBackPortShowsTheBuffer : Obligations.ReadBackPortShowsTheBuffer := by
  intro s
  have hbit (i : Nat) (hi : i < 8 * s.cfg.nChips) : s.fbQ.getLsbD i = bitRead s.fb i := by
    simp [State.fbQ, hi]
  refine ⟨hbit, fun k hk => BitVec.eq_of_getLsbD_eq fun j hj => ?_⟩
  rw [BitVec.getLsbD_extractLsb', hbit _ (by omega), bitRead, show (8 * k + j) / 8 = k by omega,
    show (8 * k + j) % 8 = j by omega]
  simp [hj]

/-! ### The step of a running transfer -/

/-- Settles O27: no micro-operation stands at an index of `L` or more. -/
theorem indexOutOfRangeFaults : Obligations.IndexOutOfRangeFaults := by
  intro s upc tick hs hr hu
  have hnone : microOp s.cfg.nChips s.fb upc = none := by
    rw [← Option.not_isSome_iff_eq_none, microOp_isSome_iff]
    unfold microOpCount; omega
  rw [step_run hr hs]
  simp [sequencerEdge, hnone]

/-- The sequencer's edge neither reads nor changes the host's schedule. -/
theorem sequencerEdge_withHost {upc tick : Nat} {s t : State} (h : sequencerEdge upc tick s = .next t)
    (acts : List HostAct) :
    t.host = s.host ∧ sequencerEdge upc tick { s with host := acts } = .next { t with host := acts } := by
  rcases sequencerEdge_cases h with ⟨line, v, hop, rfl⟩ | ⟨hop, rfl⟩
  · refine ⟨writeLine_host s line v, ?_⟩
    cases line <;> simp [sequencerEdge, hop, State.writeLine]
  · exact ⟨rfl, by simp [sequencerEdge, hop]⟩

/-- A driven edge without reset in a transfer is the sequencer's edge, with the act past. -/
theorem step_run_drive {s : State} {upc tick : Nat} (hs : s.seq = .run upc tick) (v : Bool) (w : Word)
    (rest : List HostAct) :
    step { s with host := .drive { rst := false, cmdValid := v, cmdWord := w } :: rest } =
      sequencerEdge upc tick { s with host := rest } :=
  step_run rfl hs

/-- An edge of a transfer at which a command is presented is the sequencer's edge, with the command still
presented. -/
theorem step_run_present {s : State} {upc tick : Nat} (hs : s.seq = .run upc tick) (w : Word)
    (rest : List HostAct) :
    step { s with host := .present w :: rest } =
      sequencerEdge upc tick { s with host := .present w :: rest } := by
  have hkept : ({ s with host := .present w :: rest } : State).passEdge =
      { s with host := .present w :: rest } := by
    simp [State.passEdge, accepts_of_running, hs]
  rw [step_run (s := { s with host := .present w :: rest }) rfl hs, hkept]

/-- Settles O22: either edge is the sequencer's, which does not read the port. -/
theorem runningTransferIgnoresTheCommandPort : Obligations.RunningTransferIgnoresTheCommandPort := by
  intro s upc tick v v' w w' rest hs
  refine ⟨by rw [step_run_drive hs, step_run_drive hs], accepts_of_running (by simp [hs]), fun t ht => ?_⟩
  rw [step_run_present hs] at ht
  rw [step_run_drive hs]
  exact sequencerEdge_withHost ht rest

end Sys2Proof.Machine
end

section
/-! PROOFS. The memory statements: the translation is the bounds-checked linear index (O7), and the linear index
is a bounded bijection (O8). -/

namespace Sys2Proof.Machine

/-! ### The translation -/

/-- Chip `k` and bit `j` name a linear index exactly when they are its quotient and remainder by 8. -/
theorem linearIndex_eq_chip_bit_iff {cfg : Config} {c r : Int} {k j : Nat} (hc : 0 ≤ c) (hr : 0 ≤ r) :
    (k = linearIndex cfg c r / 8 ∧ j = linearIndex cfg c r % 8) ↔
      j < 8 ∧ c * cfg.nRows + r = 8 * (k : Int) + j := by
  rw [← linearIndex_cast hc hr]
  omega

/-- The translation succeeds exactly under the three conditions of spec/20_memory.md R46, with R46's chip and
bit. -/
theorem translate_eq_some_iff {cfg : Config} {c r : Int} {k j : Nat} :
    translate cfg c r = some (k, j) ↔
      (0 ≤ c ∧ c < cfg.nCols) ∧ (0 ≤ r ∧ r < cfg.nRows) ∧
        k = linearIndex cfg c r / 8 ∧ j = linearIndex cfg c r % 8 ∧ k < cfg.nChips := by
  refine ⟨translate_some, ?_⟩
  rintro ⟨⟨hc, hc'⟩, ⟨hr, hr'⟩, rfl, rfl, hchip⟩
  rw [translate_in_grid hc hc' hr hr', if_neg (Nat.not_le.mpr hchip)]

/-- A provisioned chain holds the bit of every grid coordinate. -/
theorem linearIndex_div_eight_lt {cfg : Config} {c r : Int} (hprov : cfg.Provisioned) (hc : 0 ≤ c)
    (hc' : c < cfg.nCols) (hr : 0 ≤ r) (hr' : r < cfg.nRows) : linearIndex cfg c r / 8 < cfg.nChips :=
  Nat.div_lt_of_lt_mul <| by
    have hlt := linearIndex_lt hc hc' hr hr'
    omega

/-- Settles O7: R46's conditions, with its chip and bit read as a quotient and a remainder. -/
theorem translateIsTheBoundsCheckedIndex : Obligations.TranslateIsTheBoundsCheckedIndex := by
  refine ⟨fun cfg c r k j => ?_, fun cfg c r hprov hc hc' hr hr' => ?_⟩
  · rw [translate_eq_some_iff]
    refine and_congr_right fun ⟨hc, _⟩ => and_congr_right fun ⟨hr, _⟩ => ?_
    rw [← and_assoc, linearIndex_eq_chip_bit_iff hc hr]
    exact and_comm
  · rw [← linearIndex_cast hc hr]
    exact_mod_cast linearIndex_div_eight_lt hprov hc hc' hr hr'

/-! ### The bijection -/

/-- The constraints of spec/00_scope.md R6 bound the linear index of a grid coordinate. -/
theorem linearIndex_le {cfg : Config} {c r : Int} (hv : cfg.Valid) (hc : 0 ≤ c) (hc' : c < cfg.nCols)
    (hr : 0 ≤ r) (hr' : r < cfg.nRows) : linearIndex cfg c r ≤ 16128 := by
  obtain ⟨-, hcols, -, hrows, -, -⟩ := hv
  have hlt := linearIndex_lt hc hc' hr hr'
  have hcells : cfg.nCols * cfg.nRows ≤ 127 * 127 := Nat.mul_le_mul hcols hrows
  omega

/-- The coordinate is read back from its linear index by a division by `N_ROWS`. -/
theorem linearIndex_ediv_emod {cfg : Config} {c r : Int} (hc : 0 ≤ c) (hr : 0 ≤ r) (hr' : r < cfg.nRows) :
    (linearIndex cfg c r : Int) / cfg.nRows = c ∧ (linearIndex cfg c r : Int) % cfg.nRows = r := by
  rw [Int.ediv_emod_unique (by omega), linearIndex_cast hc hr]
  exact ⟨by ring, hr, hr'⟩

/-- Distinct coordinates have distinct linear indices. -/
theorem linearIndex_injective {cfg : Config} {c r c' r' : Int} (hc : 0 ≤ c) (hr : 0 ≤ r)
    (hrlt : r < cfg.nRows) (hc' : 0 ≤ c') (hr' : 0 ≤ r') (hrlt' : r' < cfg.nRows)
    (h : linearIndex cfg c r = linearIndex cfg c' r') : c = c' ∧ r = r' := by
  obtain ⟨hcol, hrow⟩ := linearIndex_ediv_emod hc hr hrlt
  obtain ⟨hcol', hrow'⟩ := linearIndex_ediv_emod hc' hr' hrlt'
  rw [h] at hcol hrow
  exact ⟨hcol.symm.trans hcol', hrow.symm.trans hrow'⟩

/-- Every index is the image of its quotient and remainder by `N_ROWS`. -/
theorem linearIndex_div_mod (cfg : Config) (i : Nat) :
    linearIndex cfg (i / cfg.nRows : Nat) (i % cfg.nRows : Nat) = i := by
  have h := linearIndex_cast (cfg := cfg) (Int.natCast_nonneg (i / cfg.nRows))
    (Int.natCast_nonneg (i % cfg.nRows))
  norm_cast at h
  rw [h, Nat.div_add_mod']

/-- Settles O8: division by `N_ROWS` inverts the linear index on both sides. -/
theorem indexerIsABijection : Obligations.IndexerIsABijection := by
  intro cfg hv
  refine ⟨fun c r hc hc' hr hr' => ?bounds, fun c r c' r' hc _ hr hrlt hc' _ hr' hrlt' h => ?injective,
    fun i hi => ?onto⟩
  case bounds =>
    have hle := linearIndex_le hv hc hc' hr hr'
    exact ⟨linearIndex_cast hc hr, linearIndex_lt hc hc' hr hr', hle, by omega⟩
  case injective => exact linearIndex_injective hc hr hrlt hc' hr' hrlt' h
  case onto =>
    obtain ⟨-, -, hrows, -, -, -⟩ := hv
    exact ⟨Nat.div_lt_of_lt_mul (by rwa [Nat.mul_comm]), Nat.mod_lt i hrows, linearIndex_div_mod cfg i⟩

end Sys2Proof.Machine
end

section
/-! PROOFS. The encoding statements: the two round trips of decoder and encoder (O3, O4), the decoder by fields and
by the opcode table (O2, O5), the aliasing of truncated coordinates (O6), the words of the test vectors (O1), and
the step of a reserved and of a fetched word (O16, O20). -/

namespace Sys2Proof

/-! ### The decoder, one equation per operation code (spec/30_encoding.md R65) -/

theorem decode_of_opField_zero {w : Word} (h : opField w = 0x00#8) : decode w = .instr .nop := by
  simp [decode, h]

theorem decode_of_opField_one {w : Word} (h : opField w = 0x01#8) :
    decode w = .instr
      (.set (signedCoordinate (colField w)) (signedCoordinate (rowField w)) (valField w)) := by
  simp [decode, h]

theorem decode_of_opField_two {w : Word} (h : opField w = 0x02#8) : decode w = .instr .clearAll := by
  simp [decode, h]

theorem decode_of_opField_three {w : Word} (h : opField w = 0x03#8) : decode w = .instr .transmit := by
  simp [decode, h]

theorem decode_of_four_le_opField {w : Word} (h : 4 ≤ (opField w).toNat) :
    decode w = .reserved (opField w) := by
  have hne {n : Nat} (hn : n < 4) : opField w ≠ BitVec.ofNat 8 n := fun e => by
    rw [e, BitVec.toNat_ofNat] at h
    omega
  rw [decode, if_neg (hne (by decide)), if_neg (hne (by decide)), if_neg (hne (by decide)),
    if_neg (hne (by decide))]

/-- A word decodes to a command only by the operation code of that command. -/
theorem decode_eq_instr_cases {w : Word} {i : Instr} (h : decode w = .instr i) :
    (opField w = 0x00#8 ∧ i = .nop) ∨
    (opField w = 0x01#8 ∧
      i = .set (signedCoordinate (colField w)) (signedCoordinate (rowField w)) (valField w)) ∨
    (opField w = 0x02#8 ∧ i = .clearAll) ∨
    (opField w = 0x03#8 ∧ i = .transmit) := by
  have hcases := decode_cases w
  simp only [h, Decoded.instr.injEq, reduceCtorEq, and_false, or_false] at hcases
  exact hcases

/-- The operation code is the word's top byte as a number. -/
theorem opField_toNat (w : Word) : (opField w).toNat = w.toNat / 2 ^ 24 := by
  rw [opField, BitVec.extractLsb'_toNat, Nat.shiftRight_eq_div_pow, Nat.mod_eq_of_lt]
  omega

/-! ### Decoding an encoded command -/

/-- Settles O3: each command's word has its operation code, and the fields of SET read back. -/
theorem decodeOfEncode : Obligations.DecodeOfEncode := by
  intro i hwf
  cases i with
  | nop => exact decode_of_opField_zero (opField_append ..)
  | set c r v =>
    obtain ⟨hc, hr⟩ := hwf
    rw [encode, formatC_eq, decode_of_opField_one (opField_append ..), colField_append, rowField_append,
      valField_append, signedCoordinate_field hc, signedCoordinate_field hr]
  | clearAll => exact decode_of_opField_two (opField_append ..)
  | transmit => exact decode_of_opField_three (opField_append ..)

/-- Settles O2: the operation code of the word is `op`, and R65 has one line for each. -/
theorem everyWordDecodesByItsFields : Obligations.EveryWordDecodesByItsFields := by
  intro op ignored v col row w hw
  have hop : opField w = op := hw ▸ opField_append ..
  have hcol : colField w = col := hw ▸ colField_append ..
  have hrow : rowField w = row := hw ▸ rowField_append ..
  have hval : valField w = v := hw ▸ valField_append ..
  refine ⟨fun h => ?nop, fun h c r hc hr => ?set, fun h => ?clearAll, fun h => ?transmit, fun h => ?reserved⟩
  case nop => exact decode_of_opField_zero (hop.trans (BitVec.eq_of_toNat_eq h))
  case set =>
    rw [decode_of_opField_one (hop.trans (BitVec.eq_of_toNat_eq h)), hcol, hrow, hval,
      signedCoordinate_eq, signedCoordinate_eq, ← hc, ← hr]
  case clearAll => exact decode_of_opField_two (hop.trans (BitVec.eq_of_toNat_eq h))
  case transmit => exact decode_of_opField_three (hop.trans (BitVec.eq_of_toNat_eq h))
  case reserved =>
    rw [decode_of_four_le_opField (hop.symm ▸ h), hop]

/-! ### Masks on the fields of a word -/

/-- A word under a mask of format C is masked field by field. -/
theorem and_fields (w : Word) (op : BitVec 8) (ign : BitVec 7) (v : BitVec 1) (col row : BitVec 8) :
    w &&& (op ++ ign ++ v ++ col ++ row : BitVec 32) =
      (opField w &&& op) ++ (w.extractLsb' 17 7 &&& ign) ++ (BitVec.ofBool (valField w) &&& v) ++
        (colField w &&& col) ++ (rowField w &&& row) := by
  rw [← BitVec.and_append, ← BitVec.and_append, ← BitVec.and_append, ← BitVec.and_append, append_fields]

/-- The mask of every opcode-table row keeps the operation code alone. -/
theorem and_opMask (w : Word) : w &&& 0xFF000000#32 = formatC (opField w) false 0#8 0#8 := by
  have h := and_fields w 0xFF#8 0#7 0#1 0#8 0#8
  rwa [BitVec.and_zero, BitVec.and_zero, BitVec.and_zero, BitVec.and_zero,
    show opField w &&& 0xFF#8 = opField w from BitVec.and_allOnes] at h

/-- The complement of the ignored bits of SET keeps every field it has. -/
theorem and_setMask (w : Word) :
    w &&& 0xFF01FFFF#32 = formatC (opField w) (valField w) (colField w) (rowField w) := by
  have h := and_fields w 0xFF#8 0#7 1#1 0xFF#8 0xFF#8
  have hone (b : BitVec 1) : b &&& 1#1 = b := BitVec.and_allOnes
  have hones (b : BitVec 8) : b &&& 0xFF#8 = b := BitVec.and_allOnes
  rwa [BitVec.and_zero, hone, hones, hones, hones] at h

/-- The row of SET does not depend on the operands. -/
theorem row_set (c r : Int) (v : Bool) : (Instr.set c r v).row = (Instr.set 0 0 false).row := rfl

/-- Settles O4: the fields of the word are the operands, and the mask clears the rest. -/
theorem encodeOfDecodeClearsIgnoredBits : Obligations.EncodeOfDecodeClearsIgnoredBits := by
  intro w i h
  have hop := and_opMask w
  rcases decode_eq_instr_cases h with ⟨ho, rfl⟩ | ⟨ho, rfl⟩ | ⟨ho, rfl⟩ | ⟨ho, rfl⟩
  · exact ⟨trivial, (ho ▸ hop).symm⟩
  · refine ⟨⟨signedCoordinate_fits _, signedCoordinate_fits _⟩, ?_⟩
    rw [encode, coordinateField_signed, coordinateField_signed, ← ho, row_set]
    exact (and_setMask w).symm
  · exact ⟨trivial, (ho ▸ hop).symm⟩
  · exact ⟨trivial, (ho ▸ hop).symm⟩

/-! ### The opcode table -/

/-- Every row of the table is the row of a command. -/
theorem exists_row_of_mem_opcodeTable {row : OpcodeRow} (h : row ∈ opcodeTable) :
    ∃ i : Instr, i.row = row := by
  simp only [opcodeTable, List.mem_cons, List.not_mem_nil, or_false] at h
  rcases h with rfl | rfl | rfl | rfl <;> exact ⟨_, rfl⟩

/-- The pattern of a row is its operation code with every other bit 0. -/
theorem row_pattern_eq (i : Instr) : i.row.pattern = formatC (opField i.row.pattern) false 0#8 0#8 := by
  cases i with
  | set c r v => rw [row_set]; decide
  | nop | clearAll | transmit => decide

/-- A word matches a row exactly when it has the row's operation code. -/
theorem row_holds_iff (i : Instr) (w : Word) :
    i.row.holds w = true ↔ opField w = opField i.row.pattern := by
  have hmask : i.row.mask = 0xFF000000#32 := by cases i <;> rfl
  rw [OpcodeRow.holds, beq_iff_eq, hmask, and_opMask]
  constructor
  · intro h
    rw [← h]
    exact (opField_append ..).symm
  · intro h
    rw [h, ← row_pattern_eq]

/-- A word decodes to a command of a row exactly when it has the row's operation code. -/
theorem exists_decode_eq_instr_of_row_iff (i : Instr) (w : Word) :
    (∃ j, decode w = .instr j ∧ j.row = i.row) ↔ opField w = opField i.row.pattern := by
  constructor
  · rintro ⟨j, hd, hrow⟩
    rw [← hrow]
    rcases decode_eq_instr_cases hd with ⟨ho, rfl⟩ | ⟨ho, rfl⟩ | ⟨ho, rfl⟩ | ⟨ho, rfl⟩
    · exact ho
    · rw [row_set]; exact ho
    · exact ho
    · exact ho
  · intro h
    cases i with
    | nop => exact ⟨_, decode_of_opField_zero h, rfl⟩
    | set c r v => rw [row_set] at h; exact ⟨_, decode_of_opField_one h, rfl⟩
    | clearAll => exact ⟨_, decode_of_opField_two h, rfl⟩
    | transmit => exact ⟨_, decode_of_opField_three h, rfl⟩

/-- Rows of the table with the same operation code are the same row. -/
theorem row_eq_of_opField_pattern_eq :
    ∀ row ∈ opcodeTable, ∀ row' ∈ opcodeTable,
      opField row.pattern = opField row'.pattern → row = row' := by
  decide

/-- Settles O5: matching a row and decoding to its command both say the word has the row's operation code. -/
theorem decoderFollowsOpcodeTable : Obligations.DecoderFollowsOpcodeTable := by
  refine fun w => ⟨fun row hrow => ?_, fun row hrow row' hrow' h h' => ?_⟩
  · obtain ⟨i, rfl⟩ := exists_row_of_mem_opcodeTable hrow
    rw [row_holds_iff, exists_decode_eq_instr_of_row_iff]
  · refine row_eq_of_opField_pattern_eq row hrow row' hrow' ?_
    obtain ⟨i, rfl⟩ := exists_row_of_mem_opcodeTable hrow
    obtain ⟨j, rfl⟩ := exists_row_of_mem_opcodeTable hrow'
    exact ((row_holds_iff i w).1 h).symm.trans ((row_holds_iff j w).1 h')

/-! ### Truncated coordinates -/

/-- The coordinate field keeps a coordinate modulo 256 (spec/70_reset_and_hazards.md R181). -/
theorem coordinateField_add_mul (x m : Int) : coordinateField (x + 256 * m) = coordinateField x := by
  apply BitVec.eq_of_toInt_eq
  rw [coordinateField, coordinateField, BitVec.toInt_ofInt, BitVec.toInt_ofInt]
  exact Int.add_mul_bmod_self_left x 256 m

/-- The coordinates that fit span less than 256. -/
theorem not_fitsCoordinate_add_mul {x m : Int} (hm : m ≠ 0) (hx : FitsCoordinate x) :
    ¬ FitsCoordinate (x + 256 * m) := by
  unfold FitsCoordinate at *
  omega

/-- Settles O6: the word holds a coordinate modulo 256, and the fitting ones lie within 256 of each other. -/
theorem truncatedCoordinatesAlias : Obligations.TruncatedCoordinatesAlias := by
  intro c r m v
  refine ⟨?_, ?_, fun hm hc hwf => not_fitsCoordinate_add_mul hm hc hwf.1,
    fun hm hr hwf => not_fitsCoordinate_add_mul hm hr hwf.2⟩
  · rw [encode, encode, coordinateField_add_mul]
  · rw [encode, encode, coordinateField_add_mul]

/-- Settles O1, by evaluating the decoder on each word. -/
theorem specWordsDecode : Obligations.SpecWordsDecode := by
  unfold Obligations.SpecWordsDecode
  decide

end Sys2Proof

namespace Sys2Proof.Machine

/-! ### Reserved and fetched words at the step -/

/-- An idle block accepts the command presented without reset (R25). -/
theorem accepts_of_idle {s : State} (hs : s.seq = .idle) (hr : s.portNow.rst = false)
    (hv : s.portNow.cmdValid = true) : s.accepts = true := by
  simp [State.accepts, State.cmdReady, hs, hr, hv]

/-- An edge of an idle block passes the host's act and changes nothing else by itself. -/
theorem passEdge_of_idle {s : State} (hs : s.seq = .idle) :
    s.passEdge = { s with host := s.host.tail } := by
  rw [passEdge_eq, passEdge_host_tail (.inr (.inr hs))]

/-- Settles O16: an operation code of 4 or more decodes to RESERVED, whose step is the host's part alone. -/
theorem reservedWordExecutesAsNop : Obligations.ReservedWordExecutesAsNop := by
  intro s w hs hp hop
  have hd : decode s.portNow.cmdWord = .reserved (opField w) := by
    rw [hp]
    exact decode_of_four_le_opField (by rwa [opField_toNat])
  have hr : s.portNow.rst = false := by rw [hp]
  have hv : s.portNow.cmdValid = true := by rw [hp]
  exact ⟨accepts_of_idle hs hr hv, by rw [step_reserved hr hs hv hd, passEdge_of_idle hs]⟩

/-- A table word that names a command is a word the decoder reads as that command. -/
theorem decode_of_decodeTableWord {nbits w : Nat} {i : Instr} (h : decodeTableWord nbits w = some i) :
    decode (BitVec.ofNat 32 (w % 2 ^ nbits)) = .instr i := by
  unfold decodeTableWord at h
  split at h
  · cases hd : decode (BitVec.ofNat 32 (w % 2 ^ nbits)) with
    | instr j => rw [hd] at h; exact congrArg _ (Option.some.inj h)
    | reserved op => rw [hd] at h; cases h
  · cases h

/-- Settles O20: the placed word is presented to an idle block, and its edge takes it off the schedule again. -/
theorem fetchedWordRunsNext : Obligations.FetchedWordRunsNext := by
  intro s nbits w i h
  rw [step_accept (s := s.withFetchWord nbits w) rfl rfl rfl (decode_of_decodeTableWord h),
    passEdge_of_idle rfl]
  rfl

end Sys2Proof.Machine
end

section
/-! PROOFS. The frame-buffer commands: SET as one bit write through the indexer (O9 to O12), CLEAR_ALL (O13, O14),
NOP (O15), and what all three leave alone at the edge that accepts them (O18). -/

namespace Sys2Proof

/-! ### The canonical word of SET (spec/40_framebuffer_ops.md R82) -/

/-- The coordinate field is the low byte of the coordinate's 32-bit pattern. -/
theorem coordinateField_eq_setWidth (x : Int) : coordinateField x = (BitVec.ofInt 32 x).setWidth 8 := by
  apply BitVec.eq_of_toNat_eq
  rw [coordinateField, BitVec.toNat_setWidth, BitVec.toNat_ofInt, BitVec.toNat_ofInt]
  omega

/-- The word of SET over the low bytes of two 32-bit patterns, as R82 puts it together. -/
theorem formatC_set_eq_or (v : Bool) (x y : BitVec 32) :
    formatC 0x01#8 v (x.setWidth 8) (y.setWidth 8) =
      0x01000000#32 ||| (if v then 0x00010000#32 else 0#32) ||| ((x &&& 0xFF#32) <<< 8) ||| (y &&& 0xFF#32) := by
  apply BitVec.eq_of_getLsbD_eq
  intro i hi
  simp only [formatC_eq, BitVec.getLsbD_append, BitVec.getLsbD_or, BitVec.getLsbD_and,
    BitVec.getLsbD_shiftLeft, BitVec.getLsbD_setWidth, BitVec.getLsbD_ofBool]
  cases v <;> interval_cases i <;> simp

end Sys2Proof

namespace Sys2Proof.Machine

/-! ### One bit of the flat vector (spec/10_state.md R21) -/

/-- Chip and bit name the flat bit `8*k + j`. -/
theorem bitWrite_chip_bit (m : Memory) (k : Nat) {j : Nat} (hj : j < 8) (v : Bool) :
    bitWrite m (8 * k + j) v = m.writeBit k j v := by
  rw [bitWrite, show (8 * k + j) / 8 = k by omega, show (8 * k + j) % 8 = j by omega]

theorem bitWrite_wf {m : Memory} (h : m.wf) (i : Nat) (v : Bool) : (bitWrite m i v).wf :=
  writeBit_wf h _ _ v

/-- Everything a bit write does to a bit read. -/
theorem bitRead_bitWrite {m : Memory} (h : m.wf) (i : Nat) (v : Bool) (i' : Nat) :
    bitRead (bitWrite m i v) i' = if i' = i then v else bitRead m i' := by
  rw [bitWrite, bitRead_writeBit h _ (Nat.mod_lt i (by omega)), Nat.div_add_mod]

/-- The last of two writes to one bit wins. -/
theorem bitWrite_bitWrite_same {m : Memory} (h : m.wf) (i : Nat) (v v' : Bool) :
    bitWrite (bitWrite m i v) i v' = bitWrite m i v' := by
  have hw := bitWrite_wf h i v
  refine wf_ext_bits (bitWrite_wf hw i v') (bitWrite_wf h i v') fun b => ?_
  rw [bitRead_bitWrite hw, bitRead_bitWrite h, bitRead_bitWrite h]
  split <;> rfl

/-- Writes to two bits commute. -/
theorem bitWrite_comm {m : Memory} (h : m.wf) {i i' : Nat} (hne : i ≠ i') (v v' : Bool) :
    bitWrite (bitWrite m i v) i' v' = bitWrite (bitWrite m i' v') i v := by
  have hw := bitWrite_wf h i v
  have hw' := bitWrite_wf h i' v'
  refine wf_ext_bits (bitWrite_wf hw i' v') (bitWrite_wf hw' i v) fun b => ?_
  rw [bitRead_bitWrite hw, bitRead_bitWrite hw', bitRead_bitWrite h, bitRead_bitWrite h]
  split
  · next hb => rw [if_neg (by omega)]
  · rfl

/-- A write of the value a bit has changes nothing. -/
theorem bitWrite_of_bitRead_eq {m : Memory} (h : m.wf) {i : Nat} {v : Bool} (hv : bitRead m i = v) :
    bitWrite m i v = m := by
  refine wf_ext_bits (bitWrite_wf h i v) h fun b => ?_
  rw [bitRead_bitWrite h]
  split
  · next hb => rw [hb, hv]
  · rfl

/-! ### SET -/

/-- Settles O10: a coordinate outside the grid has no translation. -/
theorem setOutOfRangeChangesNothing : Obligations.SetOutOfRangeChangesNothing :=
  fun _ _ _ v h => execSet_dropped v (translate_out_of_grid h)

/-- Settles O11: the chip index fails the translation's last condition, which a provisioned chain always meets. -/
theorem setBeyondTheChainChangesNothing : Obligations.SetBeyondTheChainChangesNothing := by
  refine ⟨fun s c r v hc hc' hr hr' hbeyond => ?_, by decide⟩
  rw [← linearIndex_cast hc hr] at hbeyond
  have hchip : s.cfg.nChips ≤ linearIndex s.cfg c r / 8 := by omega
  refine ⟨execSet_dropped v ?_, fun hprov => ?_⟩
  · rw [translate_in_grid hc hc' hr hr', if_pos hchip]
  · exact absurd (linearIndex_div_eight_lt hprov hc hc' hr hr') (Nat.not_lt.mpr hchip)

/-- Settles O9: SET is the bit write of R82 at the chip and bit of the translation. -/
theorem setWritesOneBit : Obligations.SetWritesOneBit := by
  refine ⟨fun c r v => ?word, fun s c r v h => execSet_dropped v h,
    fun s c r v k j hwf hc hc' hr hr' hk hj hindex => ?written⟩
  case word =>
    rw [encode, coordinateField_eq_setWidth, coordinateField_eq_setWidth, formatC_set_eq_or]
  case written =>
    have ht : translate s.cfg c r = some (k, j) :=
      (translateIsTheBoundsCheckedIndex.1 s.cfg c r k j).2 ⟨⟨hc, hc'⟩, ⟨hr, hr'⟩, hk, hj, hindex⟩
    refine ⟨_, execSet_written v ht, read_write_same hwf k _, (bitWrite_chip_bit s.fb k hj v).symm, ?_,
      fun i hi => ?_, fun k' hk' => read_write_other hwf _ hk', rfl⟩
    · rw [bitRead_writeBit hwf k hj, if_pos rfl]
    · rw [bitRead_writeBit hwf k hj, if_neg hi]

/-- A SET whose coordinate translates writes the bit of its linear index. -/
theorem execSet_bitWrite {s : State} {c r : Int} (v : Bool) {k j : Nat}
    (h : translate s.cfg c r = some (k, j)) :
    exec (.set c r v) s = .next { s with fb := bitWrite s.fb (linearIndex s.cfg c r) v } := by
  obtain ⟨-, -, rfl, rfl, -⟩ := translate_some h
  exact execSet_written v h

/-- Distinct coordinates that translate have distinct linear indices. -/
theorem linearIndex_ne_of_translate {cfg : Config} {c r c' r' : Int} {p p' : Nat × Nat}
    (h : translate cfg c r = some p) (h' : translate cfg c' r' = some p') (hne : (c, r) ≠ (c', r')) :
    linearIndex cfg c r ≠ linearIndex cfg c' r' := by
  obtain ⟨⟨hc, -⟩, ⟨hr, hrlt⟩, -⟩ := translate_some h
  obtain ⟨⟨hc', -⟩, ⟨hr', hrlt'⟩, -⟩ := translate_some h'
  exact fun he => hne (Prod.ext_iff.2 (linearIndex_injective hc hr hrlt hc' hr' hrlt' he))

theorem execSeq_cons {i : Instr} {is : List Instr} {s t : State} (h : exec i s = .next t) :
    execSeq (i :: is) s = execSeq is t := by
  simp [execSeq, h]

/-- A SET whose coordinate translates, at the head of a sequence. -/
theorem execSeq_set {s : State} {c r : Int} (v : Bool) {k j : Nat} (is : List Instr)
    (h : translate s.cfg c r = some (k, j)) :
    execSeq (.set c r v :: is) s =
      execSeq is { s with fb := bitWrite s.fb (linearIndex s.cfg c r) v } :=
  execSeq_cons (execSet_bitWrite v h)

/-- Settles O12: each law of SET is the law of the bit write, at linear indices that differ when the coordinates
do. -/
theorem setLaws : Obligations.SetLaws := by
  intro s c r v k j hwf ht
  have hlast (v' : Bool) : execSeq [.set c r v, .set c r v'] s = execSeq [.set c r v'] s := by
    rw [execSeq_set v _ ht, execSeq_set v' _ ht, execSeq_set v' _ (by exact ht),
      bitWrite_bitWrite_same hwf]
  refine ⟨⟨_, execSet_bitWrite v ht, ?readBack, fun i hi => ?frame⟩, hlast v, hlast,
    fun c' r' v' k' j' ht' hne => ?commute, fun hv => ?sameValue⟩
  case readBack => rw [bitRead_bitWrite hwf, if_pos rfl]
  case frame => rw [bitRead_bitWrite hwf, if_neg hi]
  case commute =>
    rw [execSeq_set v _ ht, execSeq_set v' _ ht', execSeq_set v' _ (by exact ht'),
      execSeq_set v _ (by exact ht), bitWrite_comm hwf (linearIndex_ne_of_translate ht ht' hne)]
  case sameValue => rw [execSet_bitWrite v ht, bitWrite_of_bitRead_eq hwf hv]

/-! ### CLEAR_ALL -/

/-- CLEAR_ALL at the edge that accepts it (R86). -/
theorem exec_clearAll (s : State) : exec .clearAll s = .next { s with fb := Memory.cleared } := rfl

/-- Settles O13: the cleared buffer reads 0 everywhere, and so does no other canonical one. -/
theorem clearAllClearsEveryByte : Obligations.ClearAllClearsEveryByte := by
  refine ⟨fun s => ⟨_, exec_clearAll s, read_cleared, bitRead_cleared, rfl, fun hwf hclear => ?_⟩, rfl,
    fun w hw => decode_of_opField_two (BitVec.eq_of_toNat_eq ((opField_toNat w).trans hw))⟩
  have hfb : Memory.cleared = s.fb := wf_ext cleared_wf hwf fun k => (hclear k).symm
  rw [hfb]

/-- The loop of R86's pseudocode: 0x00 written to the first `n` bytes, one after another. -/
def clearBytes (n : Nat) (m : Memory) : Memory := (List.range n).foldl (fun m k => m.write k 0x00#8) m

theorem clearBytes_succ (n : Nat) (m : Memory) : clearBytes (n + 1) m = (clearBytes n m).write n 0x00#8 := by
  simp [clearBytes, List.range_succ]

theorem clearBytes_wf {m : Memory} (h : m.wf) (n : Nat) : (clearBytes n m).wf := by
  induction n with
  | zero => exact h
  | succ n ih => rw [clearBytes_succ]; exact write_wf ih n _

/-- The loop clears the bytes it has passed and no other. -/
theorem read_clearBytes {m : Memory} (h : m.wf) (n k : Nat) :
    (clearBytes n m).read k = if k < n then 0x00#8 else m.read k := by
  induction n with
  | zero => rfl
  | succ n ih =>
    rw [clearBytes_succ, read_write (clearBytes_wf h n), ih]
    rcases Nat.lt_trichotomy k n with hk | rfl | hk
    · rw [if_neg (by omega), if_pos hk, if_pos (by omega)]
    · rw [if_pos rfl, if_pos (by omega)]
    · rw [if_neg (by omega), if_neg (by omega), if_neg (by omega)]

/-- The loop over all bytes of a buffer clears it. -/
theorem clearBytes_eq_cleared {m : Memory} {n : Nat} (h : m.wf) (hn : m.within n) :
    clearBytes n m = Memory.cleared := by
  refine wf_ext (clearBytes_wf h n) cleared_wf fun k => ?_
  rw [read_clearBytes h, read_cleared]
  split
  · rfl
  · exact read_of_not_listed fun c hc => by have := hn c hc; omega

/-- Settles O14, by the induction over the loop in `read_clearBytes`. -/
theorem clearAllIsTheByteLoop : Obligations.ClearAllIsTheByteLoop := by
  intro s hwf hwithin
  rw [exec_clearAll, ← clearBytes_eq_cleared hwf hwithin, clearBytes]

/-! ### NOP -/

/-- Settles O15: NOP and a reserved word leave the block as it is. -/
theorem nopChangesNothing : Obligations.NopChangesNothing := by
  refine ⟨fun _ => rfl, rfl,
    fun w hw => decode_of_opField_zero (BitVec.eq_of_toNat_eq ((opField_toNat w).trans hw)),
    fun s w op hs hp hd => ?_⟩
  rw [step_reserved (by rw [hp]) hs (by rw [hp]) (by rw [hp]; exact hd), passEdge_of_idle hs]
  rfl

/-! ### The edge that accepts a frame-buffer command -/

/-- A command neither reads nor changes the host's schedule. -/
theorem exec_withHost {i : Instr} {s t : State} (h : exec i s = .next t) (acts : List HostAct) :
    exec i { s with host := acts } = .next { t with host := acts } := by
  rcases exec_cases h with ⟨rfl, rfl⟩ | ⟨c, r, v, rfl, ⟨ht, rfl⟩ | ⟨k, j, ht, rfl⟩⟩ | ⟨rfl, rfl⟩ | ⟨rfl, rfl⟩
  · rfl
  · exact execSet_dropped v ht
  · exact execSet_written v ht
  · rfl
  · rfl

/-- Only TRANSMIT changes the sequencer. -/
theorem exec_seq {i : Instr} {s t : State} (h : exec i s = .next t) (hi : i ≠ .transmit) : t.seq = s.seq := by
  rcases exec_cases h with ⟨-, rfl⟩ | ⟨c, r, v, -, ⟨-, rfl⟩ | ⟨k, j, -, rfl⟩⟩ | ⟨-, rfl⟩ | ⟨rfl, -⟩
  · rfl
  · rfl
  · rfl
  · rfl
  · exact absurd rfl hi

/-- Settles O18: the accepting edge is the command's own effect with the host's act past, and the command's frame
covers the rest. -/
theorem frameCommandsLeaveLinesAndSequencer : Obligations.FrameCommandsLeaveLinesAndSequencer := by
  refine ⟨fun _ => accepts_of_running, fun s w i hs hp hd hi => ?_⟩
  obtain ⟨u, hu⟩ := exec_total i s
  have hstep : step s = .next { u with host := s.host.tail } := by
    rw [step_accept (by rw [hp]) hs (by rw [hp]) (by rw [hp]; exact hd), passEdge_of_idle hs,
      exec_withHost hu]
  obtain ⟨hdata, hclock, hlatch, hchain, hcfg, -⟩ := exec_frame hu
  have hseq : u.seq = .idle := (exec_seq hu hi).trans hs
  exact ⟨_, u, hstep, hu, rfl, hdata, hclock, hlatch, hseq, by simp [State.cmdReady, hseq], hchain, hcfg, rfl⟩

end Sys2Proof.Machine
end

section
/-! PROOFS. TRANSMIT: the transfer as the bits of the frame in wire order (O34 to O37, O39), the edges it takes
(O25, O42, O44), and single edges of the sequencer and of an idle block (O17, O19, O23, O24, O50). -/

namespace Sys2Proof.Machine

/-! ### The micro-operations of a bit cell by index (spec/41_serial_transmit.md R104) -/

/-- Bit cell `m` carries linear index `8*N_CHIPS - 1 - m`. -/
theorem microOp_cell {n m p : Nat} (fb : Memory) (hm : m < 8 * n) (hp : p < 5) :
    microOp n fb (5 * m + p) = some (cellMicroOp (bitRead fb (8 * n - 1 - m)) p) := by
  rw [microOp_data fb (by omega), cell_bitRead fb (by omega), show (5 * m + p) / 5 = m by omega,
    show (5 * m + p) % 5 = p by omega]

theorem microOps_length (n : Nat) (fb : Memory) : (microOps n fb).length = 40 * n + 5 := by
  induction n with
  | zero => rfl
  | succ n ih => rw [microOps_succ, List.length_append, byteCells_length, ih]; omega

/-- Settles O34: the list by index, and the index within a cell. -/
theorem microOperationIndexing : Obligations.MicroOperationIndexing := fun n fb =>
  ⟨microOps_length n fb, microOps_getElem? n fb, fun _ hm =>
    ⟨microOp_cell fb hm (p := 0) (by omega), microOp_cell fb hm (p := 1) (by omega),
      microOp_cell fb hm (p := 2) (by omega), microOp_cell fb hm (p := 3) (by omega),
      microOp_cell fb hm (p := 4) (by omega)⟩⟩

/-! ### The transfer as a list of bits -/

/-- The bits of a frame in wire order: from the highest linear index down to 0 (R117). -/
def frameBits (n : Nat) (fb : Memory) : List Bool :=
  (List.range (8 * n)).map fun m => bitRead fb (8 * n - 1 - m)

@[simp] theorem frameBits_length (n : Nat) (fb : Memory) : (frameBits n fb).length = 8 * n := by
  simp [frameBits]

/-- The byte of the last chip goes first. -/
theorem frameBits_succ (n : Nat) (fb : Memory) :
    frameBits (n + 1) fb = byteBits (fb.read n) ++ frameBits n fb := by
  have hfirst : byteBits (fb.read n) = (List.range 8).map fun m => bitRead fb (8 + 8 * n - 1 - m) := by
    change (List.range 8).map (fun m => (fb.read n).getLsbD (7 - m)) = _
    refine List.map_congr_left fun m hm => ?_
    have hm : m < 8 := List.mem_range.1 hm
    rw [bitRead, show (8 + 8 * n - 1 - m) / 8 = n by omega, show (8 + 8 * n - 1 - m) % 8 = 7 - m by omega]
  rw [frameBits, show 8 * (n + 1) = 8 + 8 * n by omega, List.range_add, List.map_append, List.map_map,
    hfirst, frameBits]
  congr 1
  exact List.map_congr_left fun m _ =>
    congrArg (bitRead fb) (show 8 + 8 * n - 1 - (8 + m) = 8 * n - 1 - m by omega)

/-- The last bit sent is bit 0 of chip 0. -/
theorem frameBits_eq_append_last {n : Nat} (fb : Memory) (hn : 1 ≤ n) :
    ∃ bs, frameBits n fb = bs ++ [bitRead fb 0] := by
  obtain ⟨k, hk⟩ : ∃ k, 8 * n = k + 1 := ⟨8 * n - 1, by omega⟩
  exact ⟨_, by rw [frameBits, hk, List.range_succ, List.map_append, List.map_singleton,
    show k + 1 - 1 - k = 0 by omega]⟩

theorem byteCells_eq_bitCells (b : Byte) : byteCells b = (byteBits b).flatMap bitCell := rfl

/-- A transfer is one bit cell for each bit of the frame, then the latch pulse. -/
theorem microOps_eq_bitCells (n : Nat) (fb : Memory) :
    microOps n fb = (frameBits n fb).flatMap bitCell ++ latchPulse := by
  induction n with
  | zero => rfl
  | succ n ih =>
    rw [microOps_succ, ih, frameBits_succ, byteCells_eq_bitCells, List.flatMap_append, List.append_assoc]

/-! ### The data at the rising edges of CLOCK -/

theorem capturedData_bitCells (s : State) (bs : List Bool) : s.capturedData (bs.flatMap bitCell) = bs := by
  induction bs generalizing s with
  | nil => rfl
  | cons b bs ih =>
    rw [List.flatMap_cons, capturedData_append, capturedData_bitCell, ih, List.singleton_append]

theorem capturedData_microOps (s : State) (n : Nat) (fb : Memory) :
    s.capturedData (microOps n fb) = frameBits n fb := by
  rw [microOps_eq_bitCells, capturedData_append, capturedData_bitCells, capturedData_latchPulse,
    List.append_nil]

/-- Settles O36: each cell captures its own bit, and a linear index is a chip and a bit of it. -/
theorem streamLaw : Obligations.StreamLaw := by
  intro s
  refine ⟨capturedData_microOps s _ _, (capturedData_microOps s _ _).trans ?_⟩
  refine List.map_congr_left fun m hm => ?_
  have hm : m < 8 * s.cfg.nChips := List.mem_range.1 hm
  rw [bitRead, show (8 * s.cfg.nChips - 1 - m) / 8 = s.cfg.nChips - 1 - m / 8 by omega,
    show (8 * s.cfg.nChips - 1 - m) % 8 = 7 - m % 8 by omega]

/-! ### The state a transfer leaves -/

/-- One bit cell after another: DATA keeps the last bit, and the chain has taken in all of them. -/
theorem runMicroOps_bitCells (s : State) (bs : List Bool) (b : Bool) :
    s.runMicroOps ((bs ++ [b]).flatMap bitCell) =
      { s with data := b, clock := true, chain := s.chain.shiftAll (bs ++ [b]) } := by
  induction bs generalizing s with
  | nil => exact runMicroOps_bitCell s b
  | cons a bs ih =>
    rw [List.cons_append, List.flatMap_cons, runMicroOps_append, runMicroOps_bitCell, ih, shiftAll_cons]

/-- The latch pulse makes one rising edge of LATCH from either level. -/
theorem runMicroOps_latchPulse_of_any (s : State) :
    s.runMicroOps latchPulse = { s with latch := false, chain := s.chain.latchOutputs } := by
  simp [latchPulse, State.writeLine, risingEdge]

/-- What a transfer does, whatever the line levels at its entry (R106, R107). -/
theorem transmitFrame_eq {s : State} (hn : 1 ≤ s.cfg.nChips) :
    s.transmitFrame =
      { s with
        data := bitRead s.fb 0, clock := true, latch := false
        chain := (s.chain.shiftAll (frameBits s.cfg.nChips s.fb)).latchOutputs } := by
  obtain ⟨bs, hbs⟩ := frameBits_eq_append_last s.fb hn
  rw [State.transmitFrame, microOps_eq_bitCells, runMicroOps_append, hbs, runMicroOps_bitCells,
    runMicroOps_latchPulse_of_any]

/-- Settles O37: the last bit sent is `FB[0][0]`, its cell leaves CLOCK high and the pulse leaves LATCH low. -/
theorem lineLevelsAtTheEndOfATransfer : Obligations.LineLevelsAtTheEndOfATransfer := by
  intro s hn
  rw [transmitFrame_eq hn]
  exact ⟨rfl, rfl, rfl, rfl⟩

/-- As many bits as there are stages push all of the old contents out. -/
theorem shiftAll_of_length_le {ch : Chain} {bs : List Bool} (h : ch.sr.length ≤ bs.length) :
    ch.shiftAll bs = { ch with sr := bs.reverse.take ch.sr.length } := by
  rw [shiftAll_eq, List.take_append_of_le_length (by simpa using h)]

/-- Settles O39: a chain no longer than the buffer keeps nothing of what it held before a transfer. -/
theorem transmitTwiceIsTransmitOnce : Obligations.TransmitTwiceIsTransmitOnce := by
  intro s hn _ hlen
  have hlen' : s.chain.sr.length ≤ (frameBits s.cfg.nChips s.fb).length := by simpa using hlen
  rw [transmitFrame_eq hn, transmitFrame_eq (by exact hn), capturedData_microOps, capturedData_microOps]
  refine ⟨?_, rfl⟩
  congr 1
  rw [shiftAll_of_length_le hlen', shiftAll_of_length_le]
  · simp [Chain.latchOutputs]
  · simp [hlen]

/-! ### Counts over a transfer (R105) -/

/-- A count of micro-operations is one count for each bit cell and one for the latch pulse. -/
theorem microOps_countP {p : MicroOp → Bool} {c : Nat} (hc : ∀ b, (bitCell b).countP p = c) (n : Nat)
    (fb : Memory) : (microOps n fb).countP p = 8 * n * c + latchPulse.countP p := by
  have hcells (bs : List Bool) : (bs.flatMap bitCell).countP p = bs.length * c := by
    induction bs with
    | nil => simp
    | cons b bs ih => rw [List.flatMap_cons, List.countP_append, hc, ih, List.length_cons, Nat.succ_mul,
        Nat.add_comm]
  rw [microOps_eq_bitCells, List.countP_append, hcells, frameBits_length]

theorem microOps_countP_isWrite (n : Nat) (fb : Memory) :
    (microOps n fb).countP MicroOp.isWrite = 24 * n + 3 := by
  rw [microOps_countP (c := 3) fun _ => rfl, show latchPulse.countP MicroOp.isWrite = 3 from rfl]
  omega

theorem microOps_count_hold (n : Nat) (fb : Memory) : (microOps n fb).count .hold = 16 * n + 2 := by
  rw [List.count, microOps_countP (c := 2) fun _ => rfl, show latchPulse.countP (· == .hold) = 2 from rfl]
  omega

theorem microOps_count_clock (n : Nat) (fb : Memory) (v : Bool) :
    (microOps n fb).count (.write .clock v) = 8 * n := by
  rw [List.count, microOps_countP (c := 1) fun b => by cases v <;> rfl]
  simp [latchPulse]

theorem microOps_countP_writesData (n : Nat) (fb : Memory) :
    (microOps n fb).countP (MicroOp.writesLine .data) = 8 * n := by
  rw [microOps_countP (c := 1) fun _ => rfl, show latchPulse.countP (MicroOp.writesLine .data) = 0 from rfl]
  omega

theorem microOps_countP_writesLatch (n : Nat) (fb : Memory) :
    (microOps n fb).countP (MicroOp.writesLine .latch) = 3 := by
  rw [microOps_countP (c := 0) fun _ => rfl, show latchPulse.countP (MicroOp.writesLine .latch) = 3 from rfl]
  omega

theorem risingEdges_clock_bitCells (s : State) (bs : List Bool) :
    s.risingEdges .clock (bs.flatMap bitCell) = bs.length := by
  induction bs generalizing s with
  | nil => rfl
  | cons b bs ih => rw [List.flatMap_cons, risingEdges_append, risingEdges_clock_bitCell, ih,
      List.length_cons, Nat.add_comm]

/-- Bit cells leave LATCH alone. -/
theorem latch_bitCells (s : State) (bs : List Bool) :
    (s.runMicroOps (bs.flatMap bitCell)).latch = s.latch ∧
      s.risingEdges .latch (bs.flatMap bitCell) = 0 ∧ s.fallingEdges .latch (bs.flatMap bitCell) = 0 := by
  induction bs generalizing s with
  | nil => exact ⟨rfl, rfl, rfl⟩
  | cons b bs ih =>
    obtain ⟨hlatch, hrise, hfall⟩ := ih (s.runMicroOps (bitCell b))
    rw [List.flatMap_cons, runMicroOps_append, risingEdges_append, fallingEdges_append, hlatch, hrise, hfall,
      risingEdges_latch_bitCell, fallingEdges_latch_bitCell, runMicroOps_bitCell]
    exact ⟨rfl, rfl, rfl⟩

theorem risingEdges_clock_latchPulse (s : State) : s.risingEdges .clock latchPulse = 0 := by
  cases h : s.clock <;> simp [latchPulse, State.risingEdges, State.lineLevel, risingEdge, h]

/-- From LATCH low the latch pulse makes one edge of LATCH each way. -/
theorem edges_latch_latchPulse {s : State} (h : s.latch = false) :
    s.risingEdges .latch latchPulse = 1 ∧ s.fallingEdges .latch latchPulse = 1 := by
  simp [latchPulse, State.risingEdges, State.fallingEdges, State.lineLevel, risingEdge, fallingEdge, h]

/-- CLOCK is low where a transfer writes DATA: the micro-operation before pulled it low. -/
theorem clock_low_at_data_write {n m : Nat} {fb : Memory} {v : Bool} (s : State)
    (h : microOp n fb m = some (.write .data v)) :
    (s.runMicroOps ((microOps n fb).take m)).clock = false := by
  obtain ⟨hlt, h5, -⟩ := microOp_write_data h
  obtain ⟨k, rfl⟩ : ∃ k, m = 5 * k + 1 := ⟨m / 5, by omega⟩
  have hbefore : microOp n fb (5 * k) = some (.write .clock false) :=
    microOp_cell fb (p := 0) (by omega) (by omega)
  rw [List.take_add_one, microOps_getElem?, hbefore, runMicroOps_append]
  rfl

/-- A micro-operation that changes DATA is a write of DATA. -/
theorem eq_write_data_of_data_ne {s : State} {op : MicroOp} (h : (s.microStep op).data ≠ s.data) :
    ∃ v, op = .write .data v := by
  cases op with
  | hold => exact absurd rfl h
  | write line v =>
    cases line with
    | data => exact ⟨v, rfl⟩
    | clock => exact absurd rfl h
    | latch => exact absurd rfl h

/-- Within a transfer DATA changes only while CLOCK is low, and CLOCK stays low at the change (R103). -/
theorem clock_low_of_data_change {n m : Nat} {fb : Memory} {s : State}
    (h : (s.runMicroOps ((microOps n fb).take (m + 1))).data ≠ (s.runMicroOps ((microOps n fb).take m)).data) :
    (s.runMicroOps ((microOps n fb).take m)).clock = false ∧
      (s.runMicroOps ((microOps n fb).take (m + 1))).clock = false := by
  rw [List.take_add_one, microOps_getElem?, runMicroOps_append] at h ⊢
  cases hop : microOp n fb m with
  | none => rw [hop] at h; exact absurd rfl h
  | some op =>
    rw [hop] at h
    obtain ⟨v, rfl⟩ := eq_write_data_of_data_ne h
    exact ⟨clock_low_at_data_write s hop, clock_low_at_data_write s hop⟩

/-- Settles O35: the counts and edges of one bit cell times the bits of the frame, and those of the latch pulse. -/
theorem transferCounts : Obligations.TransferCounts := by
  rintro s _ hl rfl
  simp only [← List.countP_eq_length_filter]
  obtain ⟨hlatch, hrise, hfall⟩ := latch_bitCells s (frameBits s.cfg.nChips s.fb)
  obtain ⟨hpulseRise, hpulseFall⟩ := edges_latch_latchPulse (hlatch.trans hl)
  refine ⟨microOps_countP_isWrite _ _, microOps_count_clock _ _ _, microOps_countP_writesData _ _,
    microOps_count_clock _ _ _, microOps_countP_writesLatch _ _, microOps_count_hold _ _, ?_, ?_, ?_,
    fun _ => clock_low_of_data_change⟩
  · rw [microOps_eq_bitCells, risingEdges_append, risingEdges_clock_bitCells, risingEdges_clock_latchPulse,
      frameBits_length, Nat.add_zero]
  · rw [microOps_eq_bitCells, risingEdges_append, hrise, hpulseRise]
  · rw [microOps_eq_bitCells, fallingEdges_append, hfall, hpulseFall]

/-! ### The edges of a transfer -/

theorem edgesFor_succ_of_microOp {cfg : Config} {fb : Memory} {m : Nat} {op : MicroOp}
    (h : microOp cfg.nChips fb m = some op) :
    edgesFor cfg fb (m + 1) = edgesFor cfg fb m + op.edges cfg.tUnit :=
  edgesFor_succ ((microOps_getElem? _ _ _).trans h)

/-- A write takes one edge and a hold `T_UNIT` (R109, R111). -/
theorem sum_edges (tUnit : Nat) (ops : List MicroOp) :
    (ops.map (MicroOp.edges tUnit)).sum = ops.countP MicroOp.isWrite + ops.count .hold * tUnit := by
  induction ops with
  | nil => simp
  | cons op ops ih =>
    cases op with
    | write line v =>
      rw [List.map_cons, List.sum_cons, ih, List.countP_cons_of_pos rfl, List.count_cons_of_ne (by simp),
        MicroOp.edges]
      omega
    | hold =>
      rw [List.map_cons, List.sum_cons, ih, List.countP_cons_of_neg (by simp [MicroOp.isWrite]),
        List.count_cons_self, MicroOp.edges, Nat.succ_mul]
      omega

/-- `E` of R112. -/
theorem edgesFor_all (cfg : Config) (fb : Memory) :
    edgesFor cfg fb (40 * cfg.nChips + 5) = transferEdges cfg := by
  rw [edgesFor, List.take_of_length_le (microOps_length _ _).le, sum_edges, microOps_countP_isWrite,
    microOps_count_hold, transferEdges]

/-- The edges of bit cell `m`, place by place. -/
theorem edgesFor_cell {cfg : Config} {m : Nat} (fb : Memory) (hm : m < 8 * cfg.nChips) :
    edgesFor cfg fb (5 * m + 1) = edgesFor cfg fb (5 * m) + 1 ∧
    edgesFor cfg fb (5 * m + 2) = edgesFor cfg fb (5 * m + 1) + 1 ∧
    edgesFor cfg fb (5 * m + 3) = edgesFor cfg fb (5 * m + 2) + cfg.tUnit ∧
    edgesFor cfg fb (5 * m + 4) = edgesFor cfg fb (5 * m + 3) + 1 ∧
    edgesFor cfg fb (5 * m + 5) = edgesFor cfg fb (5 * m + 4) + cfg.tUnit :=
  ⟨edgesFor_succ_of_microOp (microOp_cell fb hm (p := 0) (by omega)),
    edgesFor_succ_of_microOp (microOp_cell fb hm (p := 1) (by omega)),
    edgesFor_succ_of_microOp (microOp_cell fb hm (p := 2) (by omega)),
    edgesFor_succ_of_microOp (microOp_cell fb hm (p := 3) (by omega)),
    edgesFor_succ_of_microOp (microOp_cell fb hm (p := 4) (by omega))⟩

/-- The edges of the latch pulse, place by place. -/
theorem edgesFor_latchPulse (cfg : Config) (fb : Memory) :
    edgesFor cfg fb (40 * cfg.nChips + 1) = edgesFor cfg fb (40 * cfg.nChips) + 1 ∧
    edgesFor cfg fb (40 * cfg.nChips + 2) = edgesFor cfg fb (40 * cfg.nChips + 1) + cfg.tUnit ∧
    edgesFor cfg fb (40 * cfg.nChips + 3) = edgesFor cfg fb (40 * cfg.nChips + 2) + 1 ∧
    edgesFor cfg fb (40 * cfg.nChips + 4) = edgesFor cfg fb (40 * cfg.nChips + 3) + cfg.tUnit ∧
    edgesFor cfg fb (40 * cfg.nChips + 5) = edgesFor cfg fb (40 * cfg.nChips + 4) + 1 :=
  ⟨edgesFor_succ_of_microOp (microOp_latch _ fb 0), edgesFor_succ_of_microOp (microOp_latch _ fb 1),
    edgesFor_succ_of_microOp (microOp_latch _ fb 2), edgesFor_succ_of_microOp (microOp_latch _ fb 3),
    edgesFor_succ_of_microOp (microOp_latch _ fb 4)⟩

/-- Settles O44: each distance is the sum of the edges between its two places. -/
theorem waveformDistances : Obligations.WaveformDistances := by
  rintro cfg fb ⟨-, -, -, -, hn, -⟩
  refine ⟨fun m hm => ?_, fun m hm => ?_, ?_, ?_⟩
  · obtain ⟨-, -, h3, h4, -⟩ := edgesFor_cell fb hm
    omega
  · obtain ⟨-, h2, h3, h4, h5⟩ := edgesFor_cell fb (Nat.lt_of_succ_lt hm)
    obtain ⟨h1', h2', h3', h4', -⟩ := edgesFor_cell fb hm
    rw [Nat.mul_succ] at h1' h2' h3' h4' ⊢
    omega
  · obtain ⟨-, -, -, -, h5⟩ := edgesFor_cell (cfg := cfg) (m := 8 * cfg.nChips - 1) fb (by omega)
    obtain ⟨h1, h2, h3, -, -⟩ := edgesFor_latchPulse cfg fb
    rw [show 5 * (8 * cfg.nChips - 1) + 5 = 40 * cfg.nChips by omega,
      show 5 * (8 * cfg.nChips - 1) + 4 = 40 * cfg.nChips - 1 by omega] at h5
    omega
  · obtain ⟨-, -, -, h4, h5⟩ := edgesFor_latchPulse cfg fb
    omega

/-! ### `cmd_ready` during a transfer -/

/-- Within the edges of a micro-operation the sequencer stays at it. -/
theorem runEdges_within_microOp {s : State} {upc tick k : Nat} {op : MicroOp} (hr : noReset s.host)
    (hs : s.seq = .run upc tick) (hop : microOp s.cfg.nChips s.fb upc = some op)
    (hk : tick + k < op.edges s.cfg.tUnit) :
    ∃ t, runEdges k s = .next t ∧ t.seq = .run upc (tick + k) := by
  induction k generalizing s tick with
  | zero => exact ⟨s, rfl, hs⟩
  | succ k ih =>
    cases op with
    | write line v => simp only [MicroOp.edges] at hk; omega
    | hold =>
      simp only [MicroOp.edges] at hk
      obtain ⟨hrst, hrest⟩ := noReset_passEdge hr
      have hstep := step_hold hrst hs hop
      rw [if_neg (by omega)] at hstep
      obtain ⟨t, hrun, ht⟩ := ih (s := { s.passEdge with seq := .run upc (tick + 1) }) hrest rfl
        (by simpa using hop) (by simp only [MicroOp.edges, passEdge_cfg]; omega)
      refine ⟨t, ?_, by rw [ht, Nat.add_assoc, Nat.add_comm 1]⟩
      rw [runEdges_succ, hstep]
      exact hrun

/-- Every edge before the end of the first `m` micro-operations belongs to one of them. -/
theorem exists_microOp_of_lt_edgesFor {cfg : Config} {fb : Memory} {m e : Nat} (h : e < edgesFor cfg fb m) :
    ∃ u, u < m ∧ edgesFor cfg fb u ≤ e ∧ e < edgesFor cfg fb (u + 1) := by
  induction m with
  | zero => simp [edgesFor] at h
  | succ m ih =>
    rcases Nat.lt_or_ge e (edgesFor cfg fb m) with hlt | hge
    · obtain ⟨u, hu, hspan⟩ := ih hlt
      exact ⟨u, by omega, hspan⟩
    · exact ⟨m, by omega, hge, h⟩

/-- Micro-operations and the passing of the host's acts leave the buffer and the parameters alone. -/
theorem fields_of_withoutHost_eq {s t : State} {ops : List MicroOp} {q : Seq}
    (h : t.withoutHost = (s.runMicroOps ops).blockAt q) : t.seq = q ∧ t.cfg = s.cfg ∧ t.fb = s.fb := by
  rw [← withoutHost_seq, ← withoutHost_cfg t, ← withoutHost_fb t, h]
  simp

/-- Before edge `E` the sequencer runs. -/
theorem runEdges_before_end {s : State} {e : Nat} (hr : noReset s.host) (hs : s.seq = .run 0 0)
    (ht : 1 ≤ s.cfg.tUnit) (he : e < transferEdges s.cfg) :
    ∃ t, runEdges e s = .next t ∧ t.cmdReady = false := by
  rw [← edgesFor_all s.cfg s.fb] at he
  obtain ⟨u, hu, hge, hlt⟩ := exists_microOp_of_lt_edgesFor he
  obtain ⟨t, hrun, htr, hblock⟩ := runEdges_edgesFor hr hs ht hu.le
  obtain ⟨hseq, hcfg, hfb⟩ := fields_of_withoutHost_eq hblock
  rw [seqAt_of_lt hu] at hseq
  obtain ⟨op, hop⟩ := Option.isSome_iff_exists.1 ((microOp_isSome_iff s.cfg.nChips s.fb u).2 hu)
  rw [edgesFor_succ_of_microOp hop] at hlt
  obtain ⟨k, rfl⟩ := Nat.exists_eq_add_of_le hge
  obtain ⟨t', hrun', hseq'⟩ :=
    runEdges_within_microOp (k := k) htr hseq (by rw [hcfg, hfb]; exact hop) (by rw [hcfg]; omega)
  exact ⟨t', (runEdges_add hrun).trans hrun', by simp [State.cmdReady, hseq']⟩

/-- At edge `E` the sequencer becomes idle. -/
theorem runEdges_transferEdges {s : State} (hr : noReset s.host) (hs : s.seq = .run 0 0)
    (ht : 1 ≤ s.cfg.tUnit) : ∃ t, runEdges (transferEdges s.cfg) s = .next t ∧ t.seq = .idle := by
  obtain ⟨t, hrun, -, hblock⟩ := runEdges_edgesFor hr hs ht le_rfl
  rw [edgesFor_all] at hrun
  obtain ⟨hseq, -, -⟩ := fields_of_withoutHost_eq hblock
  exact ⟨t, hrun, hseq.trans (if_pos rfl)⟩

/-- Settles O42: edge `E` is the sum of all micro-operations' edges, and each earlier edge is inside one. -/
theorem transferTakesExactlyEEdges : Obligations.TransferTakesExactlyEEdges := by
  refine ⟨fun s w hvalid hs hp hd hr => ?_, by simp only [transferEdges, Config.hardware]⟩
  obtain ⟨-, -, -, -, hn, htUnit⟩ := hvalid
  have haccept := (runEdges_one s).trans (step_transmit hs hp hd)
  obtain ⟨hfirst, -⟩ := edgesFor_cell (cfg := s.cfg) (m := 0) s.fb (by omega)
  refine ⟨hfirst, edgesFor_all s.cfg s.fb, fun e he => ?_, ?_⟩
  · rw [runEdges_add haccept]
    exact runEdges_before_end hr rfl htUnit he
  · obtain ⟨t, hrun, hseq⟩ := runEdges_transferEdges
      (s := { s with seq := .run 0 0, host := s.host.tail }) hr rfl htUnit
    exact ⟨t, (runEdges_add haccept).trans hrun, by simp [State.cmdReady, hseq]⟩

/-! ### One edge of the sequencer -/

/-- Settles O24: the edge is the write of one line and the move to the next micro-operation. -/
theorem writeMicroOperationTakesOneEdge : Obligations.WriteMicroOperationTakesOneEdge := by
  intro s upc line v hs hr hop
  refine ⟨_, step_write hr hs hop, ?_, fun l hl => ?_, rfl, by simp, by simp⟩
  · rw [lineLevel_withSeq, writeLine_lineLevel_self]
  · rw [lineLevel_withSeq, writeLine_lineLevel_other _ v hl, passEdge_lineLevel]

/-- The micro-operation after a hold is a write, and so is the one before it. -/
theorem hold_between_writes {n upc : Nat} {fb : Memory} (h : microOp n fb (upc + 1) = some .hold) :
    (∃ l v, microOp n fb upc = some (.write l v)) ∧ ∃ l v, microOp n fb (upc + 2) = some (.write l v) := by
  have hwrite {u : Nat} (hu : u < microOpCount n) (hne : microOp n fb u ≠ some .hold) :
      ∃ l v, microOp n fb u = some (.write l v) := by
    obtain ⟨op, hop⟩ := Option.isSome_iff_exists.1 ((microOp_isSome_iff n fb u).2 hu)
    cases op with
    | write l v => exact ⟨l, v, hop⟩
    | hold => exact absurd hop hne
  have hplace := microOp_hold h
  unfold microOpCount at hwrite
  exact ⟨hwrite (by omega) fun h' => by have := microOp_hold h'; omega,
    hwrite (by omega) fun h' => by have := microOp_hold h'; omega⟩

/-- Settles O25: an edge of a hold moves `SEQ` alone, and holds stand one by one between writes. -/
theorem holdMicroOperationCountsTimingUnit : Obligations.HoldMicroOperationCountsTimingUnit := by
  refine ⟨fun s upc tick hs hr hop => ?_, fun n fb h => ?_, fun cfg fb upc h => ?_⟩
  · exact ⟨_, step_hold hr hs hop, fun l => by rw [lineLevel_withSeq, passEdge_lineLevel], passEdge_chain s,
      passEdge_fb s, passEdge_cfg s, rfl⟩
  · rw [show 40 * n + 5 - 1 = microOpCount n - 1 from rfl, microOp_last] at h
    cases h
  · obtain ⟨hbefore, l, v, hafter⟩ := hold_between_writes h
    refine ⟨hbefore, ⟨l, v, hafter⟩, ?_⟩
    rw [edgesFor_succ_of_microOp hafter, edgesFor_succ_of_microOp h, Nat.add_assoc]
    rfl

/-- Settles O50: DATA changes only at its write, the second place of a bit cell, where the invariant has CLOCK
low. -/
theorem dataIsStableWhileClockIsHigh : Obligations.DataIsStableWhileClockIsHigh := by
  intro s t h hr hst hne
  rcases onlyMicroOperationsAndResetWriteTheLines s t .data hst hne with hr' | ⟨upc, tick, hs, hop, hother⟩
  · rw [hr] at hr'; cases hr'
  · obtain ⟨hlt, h5, -⟩ := microOp_write_data hop
    have hclock : s.clock = false := by
      refine h.clockLevel false ?_
      rw [hs, clockLevel_run (by omega), decide_eq_false (by omega)]
    exact ⟨hclock, (hother .clock nofun).trans hclock⟩

/-! ### One edge of an idle block -/

/-- Settles O17: the accepting edge only starts the sequencer, and the operation code alone makes a TRANSMIT. -/
theorem transmitStartsTheSequencer : Obligations.TransmitStartsTheSequencer := by
  refine ⟨fun s => ⟨rfl, fun t ht => ?_⟩, rfl,
    fun w hw => decode_of_opField_three (BitVec.eq_of_toNat_eq ((opField_toNat w).trans hw))⟩
  cases ht
  exact ⟨rfl, rfl⟩

/-- Settles O19: the block accepts, and its step is the command past the host's act. -/
theorem stepRunsTheDecodedCommand : Obligations.StepRunsTheDecodedCommand := by
  intro s w i hs hp hd
  have hr : s.portNow.rst = false := by rw [hp]
  have hv : s.portNow.cmdValid = true := by rw [hp]
  exact ⟨accepts_of_idle hs hr hv, by rw [step_accept hr hs hv (by rw [hp]; exact hd), passEdge_of_idle hs]⟩

/-- Settles O23: with neither reset nor command only the host's act passes. -/
theorem idleBlockHoldsItsState : Obligations.IdleBlockHoldsItsState := by
  intro s hs hr hv
  rw [step_quiet hr hs hv, passEdge_of_idle hs]

end Sys2Proof.Machine
end

section
/-! PROOFS. The chain: which step moves which of its layers (O31, O32), what a transfer leaves in a chain of any
length (O38), and what the outputs show at every edge of a TRANSMIT (O43). -/

namespace Sys2Proof.Machine

/-! ### The steps that move the chain -/

/-- Everything a step can do to the chain: a rising edge of CLOCK shifts it, a rising edge of LATCH copies its
shift stages to its outputs, and any other step leaves it (spec/42_chain_receiver_model.md R131, R132). -/
theorem step_chain_cases {s t : State} (h : step s = .next t) :
    (s.clock = false ∧ t.clock = true ∧ t.data = s.data ∧ t.latch = s.latch ∧
      t.chain = s.chain.shift s.data) ∨
    (s.latch = false ∧ t.latch = true ∧ t.clock = s.clock ∧ t.chain = s.chain.latchOutputs) ∨
    (¬ (s.clock = false ∧ t.clock = true) ∧ ¬ (s.latch = false ∧ t.latch = true) ∧ t.chain = s.chain) := by
  rcases step_cases h with ⟨-, rfl⟩ | ⟨-, upc, tick, line, v, -, -, rfl⟩ | ⟨-, upc, tick, -, -, rfl⟩ |
    ⟨-, -, -, rfl⟩ | ⟨-, -, -, i, -, he⟩ | ⟨-, -, -, op, -, rfl⟩
  · simp
  · cases line with
    | data => simp
    | clock => cases hc : s.clock <;> cases v <;> simp [risingEdge, hc]
    | latch => cases hl : s.latch <;> cases v <;> simp [risingEdge, hl]
  · simp
  · simp
  · obtain ⟨-, hclock, hlatch, hchain, -, -⟩ := exec_frame he
    simp [hclock, hlatch, hchain]
  · simp

theorem shift_sr_zero (d : Bool) {ch : Chain} (h : 0 < ch.sr.length) : (ch.shift d).sr[0]? = some d := by
  rw [shift_sr, List.getElem?_take_of_lt h, List.getElem?_cons_zero]

theorem shift_sr_succ (d : Bool) {ch : Chain} {i : Nat} (h : i + 1 < ch.sr.length) :
    (ch.shift d).sr[i + 1]? = ch.sr[i]? := by
  rw [shift_sr, List.getElem?_take_of_lt h, List.getElem?_cons_succ]

/-- Settles O31: of the three things a step can do to the chain only the shift moves the shift stages. -/
theorem chainShiftsExactlyOnRisingClock : Obligations.ChainShiftsExactlyOnRisingClock := by
  intro s t h
  rcases step_chain_cases h with ⟨hs, ht, hdata, -, hchain⟩ | ⟨-, -, hclock, hchain⟩ | ⟨hclock, -, hchain⟩
  · rw [hchain]
    exact ⟨fun _ _ => ⟨shift_sr_length _ _, shift_sr_zero _, fun _ => shift_sr_succ _, hdata⟩,
      fun hno => absurd ⟨hs, ht⟩ hno⟩
  · refine ⟨fun hs ht => ?_, fun _ => by rw [hchain, latchOutputs_sr]⟩
    rw [hclock, hs] at ht
    cases ht
  · exact ⟨fun hs ht => absurd ⟨hs, ht⟩ hclock, fun _ => by rw [hchain]⟩

/-- Settles O32: of the three things a step can do to the chain only the latching moves the outputs. -/
theorem chainOutputsChangeExactlyOnRisingLatch : Obligations.ChainOutputsChangeExactlyOnRisingLatch := by
  intro s t h
  rcases step_chain_cases h with ⟨-, -, -, hlatch, hchain⟩ | ⟨hs, ht, -, hchain⟩ | ⟨-, hlatch, hchain⟩
  · refine ⟨fun hs ht => ?_, fun _ => by rw [hchain, shift_out]⟩
    rw [hlatch, hs] at ht
    cases ht
  · rw [hchain]
    exact ⟨fun _ _ => ⟨rfl, rfl⟩, fun hno => absurd ⟨hs, ht⟩ hno⟩
  · exact ⟨fun hs ht => absurd ⟨hs, ht⟩ hlatch, fun _ => by rw [hchain]⟩

/-! ### What a transfer leaves in the chain -/

theorem chain_bitCells (s : State) (bs : List Bool) :
    (s.runMicroOps (bs.flatMap bitCell)).chain = s.chain.shiftAll bs := by
  rcases bs.eq_nil_or_concat with rfl | ⟨bs, b, rfl⟩
  · rfl
  · rw [List.concat_eq_append, runMicroOps_bitCells]

/-- Shifted in from the highest linear index down, the frame stands in the chain from index 0 up. -/
theorem frameBits_reverse (n : Nat) (fb : Memory) :
    (frameBits n fb).reverse = (List.range (8 * n)).map (bitRead fb) := by
  refine List.ext_getElem (by simp) fun i hi _ => ?_
  have hi : i < 8 * n := by simpa using hi
  simp only [List.getElem_reverse, frameBits, List.length_map, List.length_range, List.getElem_map,
    List.getElem_range]
  exact congrArg (bitRead fb) (by omega)

/-- A transfer puts the frame before what the shift stages held and shows all of it, whatever the line levels
at its entry (R136). -/
theorem transmitFrame_chain (s : State) :
    s.transmitFrame.chain.sr =
        ((List.range (8 * s.cfg.nChips)).map (bitRead s.fb) ++ s.chain.sr).take s.chain.sr.length ∧
      s.transmitFrame.chain.out = s.transmitFrame.chain.sr := by
  rw [State.transmitFrame, microOps_eq_bitCells, runMicroOps_append, runMicroOps_latchPulse_of_any,
    chain_bitCells, shiftAll_eq, frameBits_reverse]
  exact ⟨rfl, rfl⟩

/-- Settles O38: the stages below the frame's length hold the frame, those beyond it the old near stages. -/
theorem transferOnAChainOfAnyLength : Obligations.TransferOnAChainOfAnyLength := by
  intro s _
  obtain ⟨hsr, hout⟩ := transmitFrame_chain s
  refine ⟨by rw [hsr]; simp, hout, fun i hi hlt => ?_, fun i hi hge => ?_⟩
  · rw [hsr, List.getElem?_take_of_lt hi, List.getElem?_append_left (by simpa using hlt)]
    simp [hlt]
  · rw [hsr, List.getElem?_take_of_lt hi, List.getElem?_append_right (by simpa using hge)]
    simp

/-- A chain as long as the buffer holds and shows the frame after a transfer. -/
theorem transmitFrame_shows {s : State} (h : s.chain.sr.length = 8 * s.cfg.nChips) :
    s.transmitFrame.chain.sr = (List.range (8 * s.cfg.nChips)).map (bitRead s.fb) ∧
      s.transmitFrame.chain.out = (List.range (8 * s.cfg.nChips)).map (bitRead s.fb) := by
  obtain ⟨hsr, hout⟩ := transmitFrame_chain s
  rw [List.take_left' (by simp [h])] at hsr
  exact ⟨hsr, hout.trans hsr⟩

/-! ### The outputs within a transfer -/

/-- Micro-operations without a write of LATCH to 1 leave the outputs alone. -/
theorem runMicroOps_chain_out (s : State) {ops : List MicroOp} (h : .write .latch true ∉ ops) :
    (s.runMicroOps ops).chain.out = s.chain.out := by
  induction ops generalizing s with
  | nil => rfl
  | cons op ops ih =>
    rw [runMicroOps_cons, ih _ (List.not_mem_of_not_mem_cons h)]
    cases op with
    | hold => rfl
    | write line v =>
      cases line with
      | data => rfl
      | clock => rw [microStep_write, writeLine_clock_chain]; split <;> rfl
      | latch =>
        have hv : v = false := by
          cases v with
          | false => rfl
          | true => exact absurd List.mem_cons_self h
        simp [hv, risingEdge]

/-- LATCH is written to 1 at one index of a transfer. -/
theorem eq_of_microOps_latch_high {n i : Nat} {fb : Memory}
    (h : (microOps n fb)[i]? = some (.write .latch true)) : i = 40 * n + 2 := by
  rw [microOps_getElem?] at h
  rcases microOp_write_latch h with ⟨-, hv⟩ | ⟨hi, -⟩ | ⟨-, hv⟩
  · cases hv
  · exact hi
  · cases hv

theorem latch_high_not_mem_take {n m : Nat} (fb : Memory) (h : m ≤ 40 * n + 2) :
    .write .latch true ∉ (microOps n fb).take m := by
  intro hmem
  obtain ⟨i, hi⟩ := List.mem_iff_getElem?.1 hmem
  rw [List.getElem?_take, Option.ite_none_right_eq_some] at hi
  have := eq_of_microOps_latch_high hi.2
  omega

theorem latch_high_not_mem_drop {n m : Nat} (fb : Memory) (h : 40 * n + 3 ≤ m) :
    .write .latch true ∉ (microOps n fb).drop m := by
  intro hmem
  obtain ⟨i, hi⟩ := List.mem_iff_getElem?.1 hmem
  rw [List.getElem?_drop] at hi
  have := eq_of_microOps_latch_high hi
  omega

/-- Within a transfer the outputs show the old frame until LATCH rises, and from then on what they show at the
end. -/
theorem chain_out_take (s : State) (m : Nat) :
    (s.runMicroOps ((microOps s.cfg.nChips s.fb).take m)).chain.out =
      if m < 40 * s.cfg.nChips + 3 then s.chain.out else s.transmitFrame.chain.out := by
  split
  · exact runMicroOps_chain_out s (latch_high_not_mem_take s.fb (by omega))
  · rw [State.transmitFrame, ← List.take_append_drop m (microOps s.cfg.nChips s.fb), runMicroOps_append,
      List.take_append_drop, runMicroOps_chain_out _ (latch_high_not_mem_drop s.fb (by omega))]

/-! ### The chain at every edge of a transfer -/

theorem edgesFor_mono (cfg : Config) (fb : Memory) : Monotone (edgesFor cfg fb) := by
  refine monotone_nat_of_le_succ fun m => ?_
  rw [edgesFor, edgesFor, List.take_add_one, List.map_append, List.sum_append]
  exact Nat.le_add_right _ _

theorem chain_of_withoutHost_eq {t u : State} {q : Seq} (h : t.withoutHost = u.blockAt q) :
    t.chain = u.chain := by
  rw [← withoutHost_chain, h]
  rfl

/-- The edges of a hold leave the chain alone. -/
theorem runEdges_within_hold {s : State} {upc tick k : Nat} (hr : noReset s.host)
    (hs : s.seq = .run upc tick) (hop : microOp s.cfg.nChips s.fb upc = some .hold)
    (hk : tick + k < s.cfg.tUnit) : ∃ t, runEdges k s = .next t ∧ t.chain = s.chain := by
  induction k generalizing s tick with
  | zero => exact ⟨s, rfl, rfl⟩
  | succ k ih =>
    obtain ⟨hrst, hrest⟩ := noReset_passEdge hr
    have hstep := step_hold hrst hs hop
    rw [if_neg (by omega)] at hstep
    obtain ⟨t, hrun, ht⟩ := ih (s := { s.passEdge with seq := .run upc (tick + 1) }) hrest rfl
      (by simpa using hop) (by rw [passEdge_cfg]; omega)
    rw [runEdges_succ, hstep]
    exact ⟨t, hrun, ht.trans (passEdge_chain s)⟩

/-- Until micro-operation `m` completes the chain is where the micro-operations before it leave it. -/
theorem runEdges_chain {s : State} {m e : Nat} (hr : noReset s.host) (hs : s.seq = .run 0 0)
    (ht : 1 ≤ s.cfg.tUnit) (hm : m < 40 * s.cfg.nChips + 5) (hge : edgesFor s.cfg s.fb m ≤ e)
    (hlt : e < edgesFor s.cfg s.fb (m + 1)) :
    ∃ t, runEdges e s = .next t ∧
      t.chain = (s.runMicroOps ((microOps s.cfg.nChips s.fb).take m)).chain := by
  obtain ⟨t, hrun, htr, hblock⟩ := runEdges_edgesFor hr hs ht hm.le
  obtain ⟨hseq, hcfg, hfb⟩ := fields_of_withoutHost_eq hblock
  rw [seqAt_of_lt hm] at hseq
  have hchain := chain_of_withoutHost_eq hblock
  obtain ⟨op, hop⟩ := Option.isSome_iff_exists.1 ((microOp_isSome_iff s.cfg.nChips s.fb m).2 hm)
  rw [edgesFor_succ_of_microOp hop] at hlt
  obtain ⟨k, rfl⟩ := Nat.exists_eq_add_of_le hge
  cases op with
  | write line v =>
    obtain rfl : k = 0 := by simp only [MicroOp.edges] at hlt; omega
    exact ⟨t, hrun, hchain⟩
  | hold =>
    simp only [MicroOp.edges] at hlt
    obtain ⟨t', hrun', hchain'⟩ :=
      runEdges_within_hold (k := k) htr hseq (by rw [hcfg, hfb]; exact hop) (by rw [hcfg]; omega)
    exact ⟨t', (runEdges_add hrun).trans hrun', hchain'.trans hchain⟩

/-- At edge `E` a transfer has left the frame buffer as it was and the chain as the event level leaves it. -/
theorem runEdges_transferEdges_chain {s : State} (hr : noReset s.host) (hs : s.seq = .run 0 0)
    (ht : 1 ≤ s.cfg.tUnit) :
    ∃ t, runEdges (transferEdges s.cfg) s = .next t ∧ t.seq = .idle ∧ t.fb = s.fb ∧
      t.chain = s.transmitFrame.chain := by
  obtain ⟨t, hrun, -, hblock⟩ := runEdges_edgesFor hr hs ht le_rfl
  rw [edgesFor_all] at hrun
  obtain ⟨hseq, -, hfb⟩ := fields_of_withoutHost_eq hblock
  rw [List.take_of_length_le (microOps_length _ _).le] at hblock
  exact ⟨t, hrun, hseq.trans (if_pos rfl), hfb, chain_of_withoutHost_eq hblock⟩

/-- The outputs at every edge of a transfer up to `E`: the old frame before the edge at which LATCH rises, the
final one from it on. -/
theorem runEdges_chain_out {s : State} {e : Nat} (hr : noReset s.host) (hs : s.seq = .run 0 0)
    (ht : 1 ≤ s.cfg.tUnit) (he : e ≤ transferEdges s.cfg) :
    ∃ t, runEdges e s = .next t ∧
      t.chain.out = if e < edgesFor s.cfg s.fb (40 * s.cfg.nChips + 3) then s.chain.out
        else s.transmitFrame.chain.out := by
  have hmono := edgesFor_mono s.cfg s.fb
  rw [← edgesFor_all s.cfg s.fb] at he
  rcases Nat.lt_or_eq_of_le he with hlt | rfl
  · obtain ⟨m, hm, hge, hlt⟩ := exists_microOp_of_lt_edgesFor hlt
    obtain ⟨t, hrun, hchain⟩ := runEdges_chain hr hs ht hm hge hlt
    have hrise : m < 40 * s.cfg.nChips + 3 ↔ e < edgesFor s.cfg s.fb (40 * s.cfg.nChips + 3) :=
      ⟨fun h => hlt.trans_le (hmono h), fun h => hmono.reflect_lt (hge.trans_lt h)⟩
    exact ⟨t, hrun, by simp only [hchain, chain_out_take, hrise]⟩
  · obtain ⟨t, hrun, -, -, hchain⟩ := runEdges_transferEdges_chain hr hs ht
    rw [if_neg (hmono (by omega)).not_gt, edgesFor_all]
    exact ⟨t, hrun, by rw [hchain]⟩

/-- The state past the edge that accepts a TRANSMIT: the transfer starts and the host's act is past (R108). -/
def State.transferStart (s : State) : State := { s with seq := .run 0 0, host := s.host.tail }

theorem runEdges_accept_transmit {s : State} {w : Word} (hs : s.seq = .idle)
    (hp : s.portNow = { rst := false, cmdValid := true, cmdWord := w })
    (hd : decode w = .instr .transmit) : runEdges 1 s = .next s.transferStart :=
  (runEdges_one s).trans (step_transmit hs hp hd)

/-- Settles O43: past the accepting edge the transfer's edges leave the frame in both layers of the chain, and
the outputs change at the rising edge of LATCH alone. -/
theorem transmitShowsTheFrameOnTheChain : Obligations.TransmitShowsTheFrameOnTheChain := by
  rintro s w _ hvalid hs - - hlen hp hd hr rfl
  obtain ⟨-, -, -, -, -, htUnit⟩ := hvalid
  have haccept := runEdges_accept_transmit hs hp hd
  obtain ⟨hsr, hout⟩ := transmitFrame_shows (s := s.transferStart) hlen
  refine ⟨?_, fun e t he hrun => ?_⟩
  · obtain ⟨t, hrun, hseq, hfb, hchain⟩ := runEdges_transferEdges_chain (s := s.transferStart) hr rfl htUnit
    rw [runEdges_add haccept]
    exact ⟨t, hrun, hseq, hfb, (congrArg Chain.sr hchain).trans hsr, (congrArg Chain.out hchain).trans hout⟩
  · obtain ⟨t', hrun', hout'⟩ := runEdges_chain_out (s := s.transferStart) hr rfl htUnit he
    rw [runEdges_add haccept, hrun'] at hrun
    cases hrun
    rw [hout] at hout'
    exact hout'

end Sys2Proof.Machine
end

section
/-! PROOFS. Exceptions: the step has a next state whatever the inputs (O26). -/

namespace Sys2Proof.Machine

/-- Settles O26: the number of micro-operations is the `L` that bounds the index in R33's type. -/
theorem stepIsTotal : Obligations.StepIsTotal := fun _ h => step_total_of_lt h

end Sys2Proof.Machine
end

section
/-! PROOFS. Reset and hazards: the edge of a reset (O21), and the outputs no pixel uses (O40). -/

namespace Sys2Proof.Machine

/-- A line that ends low has not risen. -/
@[simp] theorem risingEdge_low (before : Bool) : risingEdge before false = false := Bool.and_false _

/-- The host's act of a reset edge is past after it, a command it drives included (R154). -/
theorem blockReset_host_tail {s : State} (h : s.portNow.rst = true) :
    s.passEdge.blockReset.host = s.host.tail :=
  (blockReset_host _).trans (passEdge_host_tail (.inr (.inl h)))

/-- Settles O21: the edge is the block's reset past the host's act, which leaves every line low and does not
reach the chain or the configuration. -/
theorem resetWinsOverEverything : Obligations.ResetWinsOverEverything := fun s h =>
  ⟨s.passEdge.blockReset, step_reset h, read_cleared, blockReset_fb _,
    blockReset_data _, blockReset_clock _, blockReset_latch _, blockReset_seq _,
    rfl, rfl,
    risingEdge_low _, risingEdge_low _, risingEdge_low _,
    passEdge_chain s, passEdge_cfg s, blockReset_host_tail h⟩

/-- Settles O40: the output shows the frame's bit (R136), and the invariant has that bit 0 (R34 item 1). -/
theorem unusedOutputsAreDrivenLow : Obligations.UnusedOutputsAreDrivenLow := by
  intro s hinv hidle i hunused hframe hchain
  have hlatch : s.latch = false := by rw [hinv.latchLevel, hidle]; rfl
  obtain ⟨-, hout, hshown, -⟩ := transferOnAChainOfAnyLength s hlatch
  rw [hout, hshown i hchain hframe, hinv.unusedZero i hunused]

end Sys2Proof.Machine
end
